-- ==== Sys2Proof/Word.lean ====
section
/-!
DEFINITION. The value types of the core: bytes, words, 12-bit addresses and register numbers
(spec/00_scope.md R8, R9; spec/10_state.md R22, R25, R26).
-/

namespace Sys2Proof

/-- An 8-bit value: a register V0..VF, a timer, a byte of memory. -/
abbrev Byte := BitVec 8

/-- A 16-bit value: `I`, `pc`, a stack slot, an instruction word. -/
abbrev Word := BitVec 16

/-- A 12-bit address `nnn`, as an instruction word holds it (R81). -/
abbrev Addr := BitVec 12

/-- The number of a register V0..VF, selected by a 4-bit field (R22). -/
abbrev Reg := Fin 16

/-- The number of VF, the register that doubles as the flag register (R23). -/
abbrev VF : Reg := 15

/-- The number of a logical key 0x0..0xF (R31). -/
abbrev Key := Fin 16

end Sys2Proof
end

