-- ==== Sys2Proof/Config.lean ====
section
/-!
DEFINITION. What is fixed for the core (spec/00_scope.md R7), the type of its one many-valued parameter, and the
free values. The chosen values of the parameters and the font bytes stand in Machine/Parameters.lean.
-/

namespace Sys2Proof

/-- `MEM_SIZE`: 4096 bytes, addresses 0..4095 (R7, R21). -/
abbrev Config.memSize : Nat := 4096

/-- `PROG_BASE`: where `load` puts a program and where execution begins (R7, R58). -/
abbrev Config.progBase : Nat := 0x200

/-- `ROM_MAX`: 4096 - 0x200 = 3584 bytes (R7, R261). -/
abbrev Config.romMax : Nat := 3584

/-- `STACK_DEPTH`: 16 return addresses (R7, R27). -/
abbrev Config.stackDepth : Nat := 16

/-- The two values of `MEM_OOB_POLICY` (R7, R52): what an access at an address of 4096 or more does. -/
inductive MemOobPolicy where
  /-- The address is reduced to 12 bits; the core's decided value (92_eei_decisions.md D5). -/
  | wrap12
  /-- The access raises `AddressRange`; the alternative. -/
  | fault
  deriving DecidableEq, Repr

/-- FREE VALUE (log entry 3). The byte the random source gives the draw of this number when the host has supplied
none: "a free draw (any byte, independently at each Cxkk)" (R160, D12). No body: nothing can be proved of its value. -/
opaque Config.randomByte : Nat → Byte

/-- FREE VALUE (log entry 20). The word a fault record holds for a fetch, at this address, that failed before any
word was read. Only under `MEM_OOB_POLICY = fault`, which this core does not take. -/
opaque Config.unfetchedWord : Word → Word

end Sys2Proof
end

