-- ==== Sys2Proof/Syntax.lean ====
section
/-!
DEFINITION. The 34 instructions, one constructor per row of the opcode map, in its order
(spec/30_encoding.md R85, spec/opcode_table.json). A constructor holds every operand field of its pattern (R81, R82).
-/

namespace Sys2Proof

/-- An instruction of the core. `x` and `y` are register numbers, `kk` an 8-bit immediate, `nnn` a 12-bit address,
`n` a row count (0..15: `WellFormed`). -/
inductive Instr where
  /-- `00E0` CLS: clear the display (R190). -/
  | cls
  /-- `00EE` RET: return from subroutine (R120). -/
  | ret
  /-- `1nnn` JP nnn: jump (R121). -/
  | jp (nnn : Addr)
  /-- `2nnn` CALL nnn: call subroutine (R122). -/
  | call (nnn : Addr)
  /-- `3xkk` SE Vx, kk: skip if equal to immediate (R124). -/
  | seImm (x : Reg) (kk : Byte)
  /-- `4xkk` SNE Vx, kk: skip if not equal to immediate (R125). -/
  | sneImm (x : Reg) (kk : Byte)
  /-- `5xy0` SE Vx, Vy: skip if registers equal (R126). -/
  | seReg (x y : Reg)
  /-- `6xkk` LD Vx, kk: load immediate (R140). -/
  | ldImm (x : Reg) (kk : Byte)
  /-- `7xkk` ADD Vx, kk: add immediate, no flag (R141). -/
  | addImm (x : Reg) (kk : Byte)
  /-- `8xy0` LD Vx, Vy: register copy (R142). -/
  | ldReg (x y : Reg)
  /-- `8xy1` OR Vx, Vy (R143). -/
  | orReg (x y : Reg)
  /-- `8xy2` AND Vx, Vy (R144). -/
  | andReg (x y : Reg)
  /-- `8xy3` XOR Vx, Vy (R145). -/
  | xorReg (x y : Reg)
  /-- `8xy4` ADD Vx, Vy: add with carry out (R148). -/
  | addReg (x y : Reg)
  /-- `8xy5` SUB Vx, Vy: subtract, flag = Vx > Vy (R149). -/
  | sub (x y : Reg)
  /-- `8xy6` SHR Vx: shift right by one; `y` is in the word but not read (R150). -/
  | shr (x y : Reg)
  /-- `8xy7` SUBN Vx, Vy: reverse subtract, flag = Vy > Vx (R151). -/
  | subn (x y : Reg)
  /-- `8xyE` SHL Vx: shift left by one; `y` is in the word but not read (R152). -/
  | shl (x y : Reg)
  /-- `9xy0` SNE Vx, Vy: skip if registers differ (R127). -/
  | sneReg (x y : Reg)
  /-- `Annn` LD I, nnn: set index (R172). -/
  | ldI (nnn : Addr)
  /-- `Bnnn` JP V0, nnn: jump to nnn plus V0 (R129). -/
  | jpV0 (nnn : Addr)
  /-- `Cxkk` RND Vx, kk: random byte masked by an immediate (R161). -/
  | rnd (x : Reg) (kk : Byte)
  /-- `Dxyn` DRW Vx, Vy, n: draw an n-row sprite (R191). -/
  | drw (x y : Reg) (n : Nat)
  /-- `Ex9E` SKP Vx: skip if the key numbered Vx is pressed (R200). -/
  | skp (x : Reg)
  /-- `ExA1` SKNP Vx: skip if the key numbered Vx is not pressed (R201). -/
  | sknp (x : Reg)
  /-- `Fx07` LD Vx, DT: read the delay timer (R203). -/
  | ldVxDt (x : Reg)
  /-- `Fx0A` LD Vx, K: wait for a key and load its number (R204). -/
  | ldVxK (x : Reg)
  /-- `Fx15` LD DT, Vx: set the delay timer (R206). -/
  | ldDt (x : Reg)
  /-- `Fx18` LD ST, Vx: set the sound timer (R207). -/
  | ldSt (x : Reg)
  /-- `Fx1E` ADD I, Vx: add register to index (R173). -/
  | addI (x : Reg)
  /-- `Fx29` LD F, Vx: point I at the font glyph of a digit (R175). -/
  | ldF (x : Reg)
  /-- `Fx33` LD B, Vx: store the BCD digits of Vx (R177). -/
  | ldB (x : Reg)
  /-- `Fx55` LD [I], Vx: store V0..Vx (R178). -/
  | ldMemStore (x : Reg)
  /-- `Fx65` LD Vx, [I]: load V0..Vx (R179). -/
  | ldMemLoad (x : Reg)
  deriving DecidableEq, Repr

end Sys2Proof
end

