-- ==== Sys2Proof/WellFormed.lean ====
section
/-!
DEFINITION. Which instruction terms stand for a word, and which program images `load` takes.
The register, byte and address operands are in range by their types; the row count of Dxyn is a count
"0..15" (spec/30_encoding.md R83) and is checked here.
-/

namespace Sys2Proof

/-- Every operand fits the field its word gives it (R81, R83). -/
def WellFormed (i : Instr) : Bool :=
  match i with
  | .drw _ _ n => decide (n < 16)
  | .cls | .ret => true
  | .jp _ | .call _ | .ldI _ | .jpV0 _ => true
  | .seImm _ _ | .sneImm _ _ | .ldImm _ _ | .addImm _ _ | .rnd _ _ => true
  | .seReg _ _ | .sneReg _ _ => true
  | .ldReg _ _ | .orReg _ _ | .andReg _ _ | .xorReg _ _ => true
  | .addReg _ _ | .sub _ _ | .shr _ _ | .subn _ _ | .shl _ _ => true
  | .skp _ | .sknp _ => true
  | .ldVxDt _ | .ldVxK _ | .ldDt _ | .ldSt _ => true
  | .addI _ | .ldF _ | .ldB _ | .ldMemStore _ | .ldMemLoad _ => true

/-- A program image that fits the program area: at most 4096 - 0x200 = 3584 bytes (spec/70_reset_and_hazards.md R261). -/
def RomFits (bytes : List Byte) : Bool := decide (bytes.length ≤ Config.romMax)

end Sys2Proof
end

