-- ==== Sys2Proof/Machine/Parameters.lean ====
section
/-!
DEFINITION. The values this core takes for the parameters of spec/00_scope.md R7, and the font table. They stand here,
and not in Config.lean, so that a later repair may correct one.
-/

namespace Sys2Proof

/-- `MEM_OOB_POLICY = wrap12` (R52; 92_eei_decisions.md D5; log entry 6). -/
def Config.memOobPolicy : MemOobPolicy := .wrap12

/-- `FX1E_VF_FLAG = false` (spec/43_index_memory.md R173; D11; log entry 11). -/
def Config.fx1eVfFlag : Bool := false

/-- The glyphs of digits 0 to 7 (spec/20_memory.md R57). PRESUMED: the source gives no byte values (log entry 4). -/
def Config.fontLow : List Byte :=
  [0xF0, 0x90, 0x90, 0x90, 0xF0,  0x20, 0x60, 0x20, 0x20, 0x70,  0xF0, 0x10, 0xF0, 0x80, 0xF0,
   0xF0, 0x10, 0xF0, 0x10, 0xF0,  0x90, 0x90, 0xF0, 0x10, 0x10,  0xF0, 0x80, 0xF0, 0x10, 0xF0,
   0xF0, 0x80, 0xF0, 0x90, 0xF0,  0xF0, 0x10, 0x20, 0x40, 0x40]

/-- The glyphs of digits 8 to F (R57). PRESUMED (log entry 4). -/
def Config.fontHigh : List Byte :=
  [0xF0, 0x90, 0xF0, 0x90, 0xF0,  0xF0, 0x90, 0xF0, 0x10, 0xF0,  0xF0, 0x90, 0xF0, 0x90, 0x90,
   0xE0, 0x90, 0xE0, 0x90, 0xE0,  0xF0, 0x80, 0x80, 0x80, 0xF0,  0xE0, 0x90, 0x90, 0x90, 0xE0,
   0xF0, 0x80, 0xF0, 0x80, 0xF0,  0xF0, 0x80, 0xF0, 0x80, 0x80]

/-- `FONT`: 80 bytes at `FONT_BASE` = 0, 16 glyphs of 5 bytes, top row first (R57). -/
def Config.font : List Byte := Config.fontLow ++ Config.fontHigh

end Sys2Proof
end

