-- ==== Sys2Proof/Machine/State.lean ====
section
/-!
DEFINITION. The Machine as plain data (spec/10_state.md R20: "Its fields are exactly"), the records it holds, the
outcomes of a step, and the state after reset (R38).
-/

namespace Sys2Proof.Machine

/-- Memory as a list of (address, byte) cells in one canonical form (`Memory.wf`): addresses strictly rising, and no
cell equal to what an unlisted address reads as. -/
abbrev Memory := List Host.Cell

/-- The 64 x 32 grid of 1-bit pixels, row by row: `display[col,row]` is `d[row][col]` (R30). -/
abbrev Display := Vector (Vector Bool 64) 32

/-- The 16 key levels, `true` = pressed (R31). -/
abbrev Keypad := Vector Bool 16

/-- The kinds of the fault record (spec/60_exceptions.md R220). `addressRange` arises only under
`MEM_OOB_POLICY = fault`. -/
inductive FaultKind where
  | stackOverflow
  | stackUnderflow
  | keyIndex
  | addressRange
  deriving DecidableEq, Repr

/-- The fault record `(kind, a, w, info)` (R222): the address the faulting word was fetched from, the word, and the
key value (`keyIndex`), the unreduced address (`addressRange`), or nothing. -/
structure FaultRecord where
  kind : FaultKind
  addr : Word
  word : Word
  info : Option Nat
  deriving DecidableEq, Repr

/-- The events of R39: outputs to the host. -/
inductive Event where
  /-- The sound timer went from 1 to 0 in a tick (R233). -/
  | toneCue
  /-- The word `w`, fetched from `a`, matches no pattern (R106). -/
  | unknownOpcode (w a : Word)
  /-- The instruction at `a` entered the fault state (R223, R224). -/
  | fault (kind : FaultKind) (a : Word)
  deriving DecidableEq, Repr

/-- The random source (R34, R160; log entry 3): the bytes the host's injected generator has ready, and how many free
draws were taken. A draw takes the first supplied byte, or else a free value. -/
structure Rng where
  supplied : List Byte
  drawn : Nat
  deriving DecidableEq, Repr

/-- What the host does between two steps and with the second of them (log entry 1): the key levels it writes (R243),
whether it clears `redraw` (R245), and the argument of `step(timer_tick)` (R108). -/
structure HostInput where
  keys : Option Keypad
  clearRedraw : Bool
  timerTick : Bool
  deriving DecidableEq, Repr

/-- The host that touches nothing and asks for no tick. -/
def HostInput.idle : HostInput := { keys := none, clearRedraw := false, timerTick := false }

/-- The Machine of R20, under the spec's names, with the model's `events` and `inputs` (log entries 1, 2). -/
structure State where
  /-- 4096 bytes (R21). -/
  memory : Memory
  /-- V0..VF (R22); `V[15]` is VF (R23). -/
  V : Vector Byte 16
  /-- The index register (R25). -/
  I : Word
  /-- The program counter (R26). -/
  pc : Word
  /-- The 16 slots of the call stack (R27). -/
  stack : Vector Word 16
  /-- The number of live entries, 0..16 (R27, R28). -/
  sp : Fin 17
  /-- The delay timer (R29). -/
  DT : Byte
  /-- The sound timer (R29). -/
  ST : Byte
  /-- The pixels (R30). -/
  display : Display
  /-- The key levels, written by the host (R31). -/
  keypad : Keypad
  /-- "needs redraw" (R32). -/
  redraw : Bool
  /-- `none`, or the record of the fault state (R33). -/
  fault : Option FaultRecord
  /-- The random source (R34). -/
  rng : Rng
  /-- The events of the last operation, oldest first (R39, R247). -/
  events : List Event
  /-- The host's coming inputs, one per step (R108, R109). -/
  inputs : List HostInput
  deriving DecidableEq, Repr

/-- Reasons for the model to stop with a fault: none. "Every step returns normally and is a total function of its
inputs" (spec/40_cycle.md R110): the core's own faults are next states that hold a fault record (R222). -/
inductive Fault where
  deriving DecidableEq, Repr

/-- Reasons for the model to give an instruction no meaning. -/
inductive Refusal where
  /-- Raised by an arm of `exec` whose instruction has no meaning yet; safe (the machine stops). No arm raises it. -/
  | notModelled (mnemonic : String)
  deriving DecidableEq, Repr

/-- What an operation of the core answers. -/
abbrev Result := Host.Outcome State Fault Refusal

/-- The Machine after `init` (R38, spec/70_reset_and_hazards.md R260): memory with nothing listed reads as the font
followed by zeros, `pc` is 0x200, every other field is zero. -/
def State.reset : State where
  memory := []
  V := Vector.replicate 16 0
  I := 0
  pc := 0x200
  stack := Vector.replicate 16 0
  sp := 0
  DT := 0
  ST := 0
  display := Vector.replicate 32 (Vector.replicate 64 false)
  keypad := Vector.replicate 16 false
  redraw := false
  fault := none
  rng := { supplied := [], drawn := 0 }
  events := []
  inputs := []

end Sys2Proof.Machine
end

