-- ==== Sys2Proof/Machine/Ops.lean ====
section
/-!
DEFINITION. The named operations over memory, registers, stack, timers, display, random source and events; taking a
fault as one shared operation, and `init`, the only way back from it.
-/

namespace Sys2Proof.Machine

/-! ## Memory (spec/20_memory.md) -/

/-- What an address reads as while nothing is listed for it: the reset contents, font at 0..79 and 0 elsewhere (R38, R57). -/
def Memory.unlisted (a : Nat) : Byte := Config.font.getD a 0

/-- The byte at address `a`. -/
def Memory.read (m : Memory) (a : Nat) : Byte :=
  match m with
  | [] => Memory.unlisted a
  | (k, b) :: rest => if a = k then b else Memory.read rest a

/-- `m` with nothing listed at `a`. -/
def Memory.erase (m : Memory) (a : Nat) : Memory := m.filter (fun c => decide (c.1 ≠ a))

/-- `m`, where nothing is listed at `a`, with the cell `(a, v)` at its place in the order. -/
def Memory.insert (m : Memory) (a : Nat) (v : Byte) : Memory :=
  match m with
  | [] => [(a, v)]
  | (k, b) :: rest => if a < k then (a, v) :: (k, b) :: rest else (k, b) :: Memory.insert rest a v

/-- `m` with the byte `v` at address `a`, in canonical form. -/
def Memory.write (m : Memory) (a : Nat) (v : Byte) : Memory :=
  if v = Memory.unlisted a then m.erase a else (m.erase a).insert a v

/-- The canonical form: addresses strictly rising and inside memory, no cell equal to what an unlisted address reads as. -/
abbrev Memory.wf (m : Memory) : Prop :=
  m.Pairwise (fun c d => c.1 < d.1) ∧ ∀ c ∈ m, c.1 < Config.memSize ∧ c.2 ≠ Memory.unlisted c.1

/-- `MemRead(a, 1)`: the byte at `memory[a % 4096]`; `a` is the full integer address (R52, R171). -/
def State.memRead (s : State) (a : Nat) : Byte := s.memory.read (a % Config.memSize)

/-- `MemWrite(a, 1, v)`: `memory[a % 4096] <- v` (R52, R171). No address is protected (R59). -/
def State.memWrite (s : State) (a : Nat) (v : Byte) : State :=
  { s with memory := s.memory.write (a % Config.memSize) v }

/-- The bytes at `a`, `a + 1`, ..., `n` of them, in ascending order (R51). -/
def State.readBlock (s : State) (a n : Nat) : List Byte := (List.range n).map (fun i => s.memRead (a + i))

/-- Store the bytes at `a`, `a + 1`, ... in ascending order (R51). -/
def State.storeBlock (s : State) (a : Nat) (bytes : List Byte) : State :=
  match bytes with
  | [] => s
  | b :: rest => State.storeBlock (s.memWrite a b) (a + 1) rest

/-- The first address, in access order, at which an access to `a`, `a + 1`, ... (`n` bytes) leaves memory, where the
policy makes that a fault (R52, R226; log entry 21). Under `wrap12` no access does. -/
def outOfRange (policy : MemOobPolicy) (a n : Nat) : Option Nat :=
  match policy with
  | .wrap12 => none
  | .fault => if max a Config.memSize < a + n then some (max a Config.memSize) else none

/-! ## Registers (spec/10_state.md R22..R26) -/

/-- Read `V[r]`. -/
def State.reg (s : State) (r : Reg) : Byte := s.V[r]

/-- `V[r] <- v`. -/
def State.setReg (s : State) (r : Reg) (v : Byte) : State := { s with V := s.V.set r v }

/-- `I <- v`. -/
def State.setI (s : State) (v : Word) : State := { s with I := v }

/-- `pc <- v`. -/
def State.setPc (s : State) (v : Word) : State := { s with pc := v }

/-- `pc <- (pc + 2) % 65536`: the advance of R102 and the extra step of a taken skip (R128). -/
def State.advance (s : State) : State := s.setPc (s.pc + 2)

/-- `pc <- (pc - 2) % 65536`: undoing the advance (R102, R204). -/
def State.retreat (s : State) : State := s.setPc (s.pc - 2)

/-- `V[k] <- b0`, `V[k+1] <- b1`, ... in ascending order, inside V0..VF (spec/43_index_memory.md R179). -/
def State.loadRegs (s : State) (k : Nat) (bytes : List Byte) : State :=
  match bytes with
  | [] => s
  | b :: rest => State.loadRegs (if h : k < 16 then s.setReg ⟨k, h⟩ b else s) (k + 1) rest

/-! ## Call stack (R27, R28) -/

/-- `stack[sp] <- v; sp <- sp + 1`, where there is room. -/
def State.push (s : State) (v : Word) (room : s.sp.val < 16) : State :=
  { s with stack := s.stack.set s.sp.val v, sp := ⟨s.sp.val + 1, by omega⟩ }

/-- `stack[sp - 1]`, the top entry, where there is one. -/
def State.top (s : State) (live : 0 < s.sp.val) : Word := s.stack[s.sp.val - 1]'(by omega)

/-- `sp <- sp - 1`; the slot keeps its value (R37). -/
def State.drop (s : State) : State := { s with sp := ⟨s.sp.val - 1, by omega⟩ }

/-! ## Timers (spec/60_exceptions.md R230, R231) -/

/-- `DT <- v`. -/
def State.setDT (s : State) (v : Byte) : State := { s with DT := v }

/-- `ST <- v`. -/
def State.setST (s : State) (v : Byte) : State := { s with ST := v }

/-- One decrement toward zero: "a timer at 0 stays at 0" (R231). -/
def countDown (t : Byte) : Byte := if t = 0 then 0 else t - 1

/-! ## Events (R39, R247) -/

/-- Emit an event, after the ones this operation has emitted. -/
def State.emit (s : State) (e : Event) : State := { s with events := s.events ++ [e] }

/-- `tick()` (R231): both timers count down; a sound timer that goes from 1 to 0 emits `ToneCue` (R233). -/
def State.tick (s : State) : State :=
  let t := { s with DT := countDown s.DT, ST := countDown s.ST }
  if s.ST ≠ 0 ∧ t.ST = 0 then t.emit .toneCue else t

/-! ## Display and redraw (spec/44_display.md) -/

/-- A column number modulo the screen width (R192). -/
def wrapCol (c : Nat) : Fin 64 := ⟨c % 64, Nat.mod_lt _ (by decide)⟩

/-- A row number modulo the screen height (R192). -/
def wrapRow (r : Nat) : Fin 32 := ⟨r % 32, Nat.mod_lt _ (by decide)⟩

/-- `display[col,row]`. -/
def Display.get (d : Display) (col : Fin 64) (row : Fin 32) : Bool := d[row][col]

/-- `display[col,row] <- display[col,row] XOR 1`. -/
def Display.toggle (d : Display) (col : Fin 64) (row : Fin 32) : Display := d.set row (d[row].set col (!d[row][col]))

/-- Every pixel 0 (R190). -/
def Display.clear : Display := Vector.replicate 32 (Vector.replicate 64 false)

/-- The display as the host sees it, one byte per pixel, row-major: index `row * 64 + col` (R30, D14; log entry 26). -/
def Display.bytes (d : Display) : List Byte := d.toList.flatMap (fun row => row.toList.map (fun p => if p then 1 else 0))

/-- Replace the display and mark redraw pending (R190, R191, R196). -/
def State.redrawWith (s : State) (d : Display) : State := { s with display := d, redraw := true }

/-- What a draw carries along: the display so far, and whether a pixel has gone from 1 to 0. -/
abbrev Canvas := Display × Bool

/-- XOR a set sprite bit onto one pixel (R191). -/
def drawPixel (col : Fin 64) (row : Fin 32) (p : Canvas) : Canvas := (p.1.toggle col row, p.2 || p.1.get col row)

/-- Columns `c`, `c + 1`, ... (`k` of them) of the sprite byte `b`, whose bit 7 is the leftmost (R191, R193; log
entry 5). Columns wrap modulo 64 (R192). -/
def drawColumns (b : Byte) (x0 : Nat) (row : Fin 32) (c k : Nat) (p : Canvas) : Canvas :=
  match k with
  | 0 => p
  | k + 1 => drawColumns b x0 row (c + 1) k (if b.getLsbD (7 - c) then drawPixel (wrapCol (x0 + c)) row p else p)

/-- The rows of a sprite, top row first; rows wrap modulo 32 (R191, R192). -/
def drawRows (rows : List Byte) (x0 y : Nat) (p : Canvas) : Canvas :=
  match rows with
  | [] => p
  | b :: rest => drawRows rest x0 (y + 1) (drawColumns b x0 (wrapRow y) 0 8 p)

/-! ## Keypad (spec/45_keys_timers.md R204) -/

/-- The lowest-numbered pressed key among `k`, `k + 1`, ... (`n` of them), if there is one (R204, D9; log entry 10). -/
def lowestKeyFrom (keys : Keypad) (k n : Nat) : Option Key :=
  match n with
  | 0 => none
  | n + 1 => if h : k < 16 then if keys[k] then some ⟨k, h⟩ else lowestKeyFrom keys (k + 1) n else none

/-- The lowest-numbered pressed key, if a key is pressed. -/
def lowestKey (keys : Keypad) : Option Key := lowestKeyFrom keys 0 16

/-! ## Random source (spec/42_alu.md R160) -/

/-- `draw_random()`: the next supplied byte, or a free value; and the source after the draw (log entry 3). -/
def Rng.draw (r : Rng) : Byte × Rng :=
  match r.supplied with
  | b :: rest => (b, { r with supplied := rest })
  | [] => (Config.randomByte r.drawn, { r with drawn := r.drawn + 1 })

/-- The Machine with the random source after a draw. -/
def State.setRng (s : State) (r : Rng) : State := { s with rng := r }

/-! ## Taking a fault, and `init` (spec/60_exceptions.md R222..R225) -/

/-- The numeric code of a fault kind (60_exceptions.md R220; the codes are the spec's own, D6, D8). -/
def FaultKind.code (kind : FaultKind) : Nat :=
  match kind with
  | .stackOverflow => 1
  | .stackUnderflow => 2
  | .keyIndex => 3
  | .addressRange => 4

/-- Enter the fault state from inside an instruction, where `pc` is already advanced: `pc` is set back to the
instruction's address `a`, `fault <- (kind, a, w, info)`, and `Fault(kind, a)` is emitted; nothing else changes
(R223, R224; log entries 7, 24). -/
def State.raiseFault (s : State) (kind : FaultKind) (w : Word) (info : Option Nat) : State :=
  { s with
    pc := s.pc - 2
    fault := some { kind := kind, addr := s.pc - 2, word := w, info := info }
    events := s.events ++ [.fault kind (s.pc - 2)] }

/-- Make a memory access of `n` bytes at `a`, unless the policy makes it a fault: the check stands before any write (R226). -/
def State.accessing (s : State) (policy : MemOobPolicy) (a n : Nat) (w : Word) (done : State) : State :=
  match outOfRange policy a n with
  | none => done
  | some bad => s.raiseFault .addressRange w (some bad)

/-- `init()` (R260): every field at its reset value. The random source ("any seed") and the host's coming inputs are
not the core's to reset (log entry 23). The only way out of the fault state (R225). -/
def State.init (s : State) : State := { State.reset with rng := s.rng, inputs := s.inputs }

end Sys2Proof.Machine
end

