-- ==== Sys2Proof/Machine/Flags.lean ====
section
/-!
DEFINITION. Every flag the spec computes into VF (spec/10_state.md R35), as functions of the operand values, and the
write of a flag and a result in the order of spec/42_alu.md R146.
-/

namespace Sys2Proof.Machine

/-- A flag as the byte VF holds: 1 or 0. -/
def flagByte (b : Bool) : Byte := if b then 1 else 0

/-- 8xy4: carry out of bit 7, `vx + vy > 255` (R148). -/
def carryFlag (vx vy : Byte) : Bool := decide (vx.toNat + vy.toNat > 255)

/-- 8xy5 and 8xy7: the strict comparison `a > b` of minuend and subtrahend (R149, R151). -/
def greaterFlag (a b : Byte) : Bool := decide (a.toNat > b.toNat)

/-- 8xy6: the bit shifted out, bit 0 (R150). -/
def lowBitFlag (vx : Byte) : Bool := vx.getLsbD 0

/-- 8xyE: the bit shifted out, bit 7 (R152). -/
def highBitFlag (vx : Byte) : Bool := vx.getLsbD 7

/-- Fx1E under `FX1E_VF_FLAG = true` only: `I + vx > 0x0FFF` (spec/43_index_memory.md R173, R174). -/
def indexFlag (i : Word) (vx : Byte) : Bool := decide (i.toNat + vx.toNat > 0x0FFF)

/-- `VF <- flag`. -/
def State.setFlag (s : State) (flag : Bool) : State := s.setReg VF (flagByte flag)

/-- `VF <- flag`, then `V[x] <- result`: with x = 0xF the result overwrites the flag (R146; log entry 12). -/
def State.setFlagThenReg (s : State) (flag : Bool) (x : Reg) (result : Byte) : State := (s.setFlag flag).setReg x result

end Sys2Proof.Machine
end

