-- ==== Sys2Proof/Machine/Operands.lean ====
section
/-!
DEFINITION. Every operand form: immediates widened by zeros (spec/30_encoding.md R83), the effective address of an
access through `I` (spec/43_index_memory.md R170), register blocks, sprite positions and key numbers. An operand is
read from the state the instruction began in (spec/42_alu.md R147; log entry 12).
-/

namespace Sys2Proof.Machine

/-- `zext_16(nnn)` (R83). -/
def addrWord (nnn : Addr) : Word := nnn.setWidth 16

/-- `zext_16(v)` of a byte (R83). -/
def byteWord (v : Byte) : Word := v.setWidth 16

/-- The effective address of the first byte of an access: `I` as a full integer (R170). -/
def State.base (s : State) : Nat := s.I.toNat

/-- `V0..Vx` inclusive, in ascending order (R178). -/
def State.regBlock (s : State) (x : Reg) : List Byte := s.V.toList.take (x.val + 1)

/-- The start column of a sprite, `Vx mod 64` (spec/44_display.md R191). -/
def State.startCol (s : State) (x : Reg) : Nat := (s.reg x).toNat % 64

/-- The start row of a sprite, `Vy mod 32` (R191). -/
def State.startRow (s : State) (y : Reg) : Nat := (s.reg y).toNat % 32

/-- The key a register names, if its value is a key's number (spec/45_keys_timers.md R202). -/
def State.keyOf (s : State) (x : Reg) : Option Key := if h : (s.reg x).toNat < 16 then some ⟨(s.reg x).toNat, h⟩ else none

/-- The three decimal digits of a byte: hundreds, tens, units (R177). -/
def bcdDigits (v : Byte) : List Byte :=
  [BitVec.ofNat 8 (v.toNat / 100), BitVec.ofNat 8 (v.toNat / 10 % 10), BitVec.ofNat 8 (v.toNat % 10)]

/-- A taken skip adds 2 to the already-advanced `pc`, an untaken one leaves it (spec/41_control_flow.md R128). -/
def State.skipIf (s : State) (taken : Bool) : State := if taken then s.advance else s

end Sys2Proof.Machine
end

