-- ==== Sys2Proof/Machine/Alu.lean ====
section
/-!
DEFINITION. The meanings of spec/42_alu.md: register loads, 8-bit arithmetic, logic and shifts, random.
-/

namespace Sys2Proof.Machine

/-- `6xkk` (R140): `V[x] <- kk`. -/
def execLdImm (x : Reg) (kk : Byte) (s : State) : Result := .next (s.setReg x kk)

/-- `7xkk` (R141): `V[x] <- (vx + kk) % 256`; no flag. -/
def execAddImm (x : Reg) (kk : Byte) (s : State) : Result := .next (s.setReg x (s.reg x + kk))

/-- `8xy0` (R142): `V[x] <- vy`. -/
def execLdReg (x y : Reg) (s : State) : Result := .next (s.setReg x (s.reg y))

/-- `8xy1` (R143): `V[x] <- vx OR vy`; VF is not cleared. -/
def execOr (x y : Reg) (s : State) : Result := .next (s.setReg x (s.reg x ||| s.reg y))

/-- `8xy2` (R144): `V[x] <- vx AND vy`. -/
def execAnd (x y : Reg) (s : State) : Result := .next (s.setReg x (s.reg x &&& s.reg y))

/-- `8xy3` (R145): `V[x] <- vx XOR vy`. -/
def execXor (x y : Reg) (s : State) : Result := .next (s.setReg x (s.reg x ^^^ s.reg y))

/-- `8xy4` (R148): VF = carry, then `V[x] <- sum % 256`. -/
def execAddReg (x y : Reg) (s : State) : Result :=
  .next (s.setFlagThenReg (carryFlag (s.reg x) (s.reg y)) x (s.reg x + s.reg y))

/-- `8xy5` (R149): VF = `vx > vy`, then `V[x] <- (vx - vy) % 256`. -/
def execSub (x y : Reg) (s : State) : Result :=
  .next (s.setFlagThenReg (greaterFlag (s.reg x) (s.reg y)) x (s.reg x - s.reg y))

/-- `8xy6` (R150): VF = bit 0 of `vx`, then `V[x] <- vx >> 1`; the `y` field is not read. -/
def execShr (x : Reg) (s : State) : Result := .next (s.setFlagThenReg (lowBitFlag (s.reg x)) x (s.reg x >>> 1))

/-- `8xy7` (R151): VF = `vy > vx`, then `V[x] <- (vy - vx) % 256`. -/
def execSubn (x y : Reg) (s : State) : Result :=
  .next (s.setFlagThenReg (greaterFlag (s.reg y) (s.reg x)) x (s.reg y - s.reg x))

/-- `8xyE` (R152): VF = bit 7 of `vx`, then `V[x] <- (vx << 1) % 256`; the `y` field is not read. -/
def execShl (x : Reg) (s : State) : Result := .next (s.setFlagThenReg (highBitFlag (s.reg x)) x (s.reg x <<< 1))

/-- `Cxkk` (R161): `V[x] <- rb AND kk`, where `rb` is the byte drawn (R160). -/
def execRnd (x : Reg) (kk : Byte) (s : State) : Result :=
  .next ((s.setRng s.rng.draw.2).setReg x (s.rng.draw.1 &&& kk))

end Sys2Proof.Machine
end

