-- ==== Sys2Proof/Machine/ControlFlow.lean ====
section
/-!
DEFINITION. The meanings of spec/41_control_flow.md. Each runs where `pc` is already advanced past its word (R102).
-/

namespace Sys2Proof.Machine

/-- `00EE` (R120): pop the return address into `pc`; an empty stack faults. -/
def execRet (s : State) : Result :=
  if live : 0 < s.sp.val then .next (s.drop.setPc (s.top live))
  else .next (s.raiseFault .stackUnderflow (encode .ret) none)

/-- `1nnn` (R121): `pc <- nnn`. -/
def execJp (nnn : Addr) (s : State) : Result := .next (s.setPc (addrWord nnn))

/-- `2nnn` (R122): push the advanced `pc`, `pc <- nnn`; a full stack faults. -/
def execCall (nnn : Addr) (s : State) : Result :=
  if room : s.sp.val < 16 then .next ((s.push s.pc room).setPc (addrWord nnn))
  else .next (s.raiseFault .stackOverflow (encode (.call nnn)) none)

/-- `3xkk` (R124): skip if `Vx == kk`. -/
def execSeImm (x : Reg) (kk : Byte) (s : State) : Result := .next (s.skipIf (s.reg x == kk))

/-- `4xkk` (R125): skip if `Vx != kk`. -/
def execSneImm (x : Reg) (kk : Byte) (s : State) : Result := .next (s.skipIf (s.reg x != kk))

/-- `5xy0` (R126): skip if `Vx == Vy`. -/
def execSeReg (x y : Reg) (s : State) : Result := .next (s.skipIf (s.reg x == s.reg y))

/-- `9xy0` (R127): skip if `Vx != Vy`. -/
def execSneReg (x y : Reg) (s : State) : Result := .next (s.skipIf (s.reg x != s.reg y))

/-- `Bnnn` (R129): `pc <- nnn + V0`, at 16 bits. -/
def execJpV0 (nnn : Addr) (s : State) : Result := .next (s.setPc (addrWord nnn + byteWord (s.reg 0)))

end Sys2Proof.Machine
end

