-- ==== Sys2Proof/Machine/DisplayOps.lean ====
section
/-!
DEFINITION. The meanings of spec/44_display.md.
-/

namespace Sys2Proof.Machine

/-- `00E0` (R190): every pixel 0, `redraw <- 1`. -/
def execCls (s : State) : Result := .next (s.redrawWith Display.clear)

/-- The display and the collision of a draw from the state it begins in (R191). -/
def State.drawn (s : State) (x y : Reg) (n : Nat) : Canvas :=
  drawRows (s.readBlock s.base n) (s.startCol x) (s.startRow y) (s.display, false)

/-- `Dxyn` under a memory policy (R191): the pixels, then VF = collision, and `redraw <- 1`. -/
def drwUnder (policy : MemOobPolicy) (x y : Reg) (n : Nat) (s : State) : State :=
  s.accessing policy s.base n (encode (.drw x y n)) ((s.redrawWith (s.drawn x y n).1).setFlag (s.drawn x y n).2)

/-- `Dxyn` (R191). -/
def execDrw (x y : Reg) (n : Nat) (s : State) : Result := .next (drwUnder Config.memOobPolicy x y n s)

end Sys2Proof.Machine
end

