-- ==== Sys2Proof/Machine/IndexMemory.lean ====
section
/-!
DEFINITION. The meanings of spec/43_index_memory.md. Each `...Under` takes the parameter its rule names; the meaning is
that operation at the value the core has decided (Machine/Parameters.lean).
-/

namespace Sys2Proof.Machine

/-- `Annn` (R172): `I <- nnn`. -/
def execLdI (nnn : Addr) (s : State) : Result := .next (s.setI (addrWord nnn))

/-- `Fx1E` under a value of `FX1E_VF_FLAG` (R173, R174): `I <- (I + vx) % 65536`, then, if the flag is on, VF. -/
def addIUnder (vfFlag : Bool) (x : Reg) (s : State) : State :=
  let t := s.setI (s.I + byteWord (s.reg x))
  if vfFlag then t.setFlag (indexFlag s.I (s.reg x)) else t

/-- `Fx1E` (R173). -/
def execAddI (x : Reg) (s : State) : Result := .next (addIUnder Config.fx1eVfFlag x s)

/-- `Fx29` (R175): `I <- vx * 5`, the whole product. -/
def execLdF (x : Reg) (s : State) : Result := .next (s.setI (BitVec.ofNat 16 ((s.reg x).toNat * 5)))

/-- `Fx33` under a memory policy (R177): hundreds, tens and units at `I`, `I + 1`, `I + 2`. -/
def ldBUnder (policy : MemOobPolicy) (x : Reg) (s : State) : State :=
  s.accessing policy s.base 3 (encode (.ldB x)) (s.storeBlock s.base (bcdDigits (s.reg x)))

/-- `Fx33` (R177). -/
def execLdB (x : Reg) (s : State) : Result := .next (ldBUnder Config.memOobPolicy x s)

/-- `Fx55` under a memory policy (R178): `V0..Vx` to `I`, `I + 1`, ... -/
def ldMemStoreUnder (policy : MemOobPolicy) (x : Reg) (s : State) : State :=
  s.accessing policy s.base (x.val + 1) (encode (.ldMemStore x)) (s.storeBlock s.base (s.regBlock x))

/-- `Fx55` (R178). -/
def execLdMemStore (x : Reg) (s : State) : Result := .next (ldMemStoreUnder Config.memOobPolicy x s)

/-- `Fx65` under a memory policy (R179): `V0..Vx` from `I`, `I + 1`, ... -/
def ldMemLoadUnder (policy : MemOobPolicy) (x : Reg) (s : State) : State :=
  s.accessing policy s.base (x.val + 1) (encode (.ldMemLoad x)) (s.loadRegs 0 (s.readBlock s.base (x.val + 1)))

/-- `Fx65` (R179). -/
def execLdMemLoad (x : Reg) (s : State) : Result := .next (ldMemLoadUnder Config.memOobPolicy x s)

end Sys2Proof.Machine
end

