-- ==== Sys2Proof/Machine/KeysTimers.lean ====
section
/-!
DEFINITION. The meanings of spec/45_keys_timers.md. `keypad` is what the host left before this step (R109).
-/

namespace Sys2Proof.Machine

/-- The key test of R200 to R202: skip if the key Vx names is at `level`; a value above 0xF faults. -/
def State.testKey (s : State) (x : Reg) (level : Bool) (w : Word) : State :=
  match s.keyOf x with
  | some k => s.skipIf (s.keypad[k] == level)
  | none => s.raiseFault .keyIndex w (some (s.reg x).toNat)

/-- `Ex9E` (R200): skip if `keypad[Vx]` is pressed. -/
def execSkp (x : Reg) (s : State) : Result := .next (s.testKey x true (encode (.skp x)))

/-- `ExA1` (R201): skip if `keypad[Vx]` is not pressed. -/
def execSknp (x : Reg) (s : State) : Result := .next (s.testKey x false (encode (.sknp x)))

/-- `Fx07` (R203): `V[x] <- DT`. -/
def execLdVxDt (x : Reg) (s : State) : Result := .next (s.setReg x s.DT)

/-- `Fx0A` (R204): no key pressed, undo the advance; else `V[x] <-` the lowest pressed key. -/
def execLdVxK (x : Reg) (s : State) : Result :=
  match lowestKey s.keypad with
  | none => .next s.retreat
  | some k => .next (s.setReg x (BitVec.ofNat 8 k.val))

/-- `Fx15` (R206): `DT <- vx`. -/
def execLdDt (x : Reg) (s : State) : Result := .next (s.setDT (s.reg x))

/-- `Fx18` (R207): `ST <- vx`; no event. -/
def execLdSt (x : Reg) (s : State) : Result := .next (s.setST (s.reg x))

end Sys2Proof.Machine
end

