-- ==== Sys2Proof/Machine/HostOps.lean ====
section
/-!
DEFINITION. What the host does between operations (spec/60_exceptions.md R240, R243): writing the key levels, clearing
`redraw`, taking the next of its inputs; and `load`, the sole ingestion point for programs (spec/70_reset_and_hazards.md R261).
-/

namespace Sys2Proof.Machine

/-- The host overwrites the key levels (R237, R243). -/
def State.writeKeypad (s : State) (keys : Keypad) : State := { s with keypad := keys }

/-- The host clears `redraw`, once it has presented the display (R245). -/
def State.clearRedraw (s : State) : State := { s with redraw := false }

/-- The host's next input: the first of `inputs`, or the idle one where it has prepared none (log entry 1). -/
def State.nextInput (s : State) : HostInput := s.inputs.headD .idle

/-- The host's accesses of its next input, made between operations; the input is used up (R109, R243). -/
def State.hostActs (s : State) : State :=
  { s with
    keypad := s.nextInput.keys.getD s.keypad
    redraw := s.redraw && !s.nextInput.clearRedraw
    inputs := s.inputs.tail }

/-- The results of `load` (R261). -/
inductive LoadStatus where
  | ok
  | romTooLarge
  deriving DecidableEq, Repr

/-- `load(bytes)` (R261, R262): copy the bytes to 0x200 and up; an image of more than 3584 bytes changes nothing. -/
def State.load (s : State) (bytes : List Byte) : State × LoadStatus :=
  if RomFits bytes then (s.storeBlock Config.progBase bytes, .ok) else (s, .romTooLarge)

end Sys2Proof.Machine
end

