-- ==== Sys2Proof/Machine/Cycle.lean ====
section
/-!
DEFINITION. The instruction cycle: fetch, advance, decode, execute (spec/40_cycle.md R100..R108).
-/

namespace Sys2Proof.Machine

/-- The instruction word at `pc`: two consecutive bytes, big-endian, each address reduced (R101, R53). -/
def State.fetchWord (s : State) : Word := wordOfBytes (s.memRead s.pc.toNat) (s.memRead (s.pc.toNat + 1))

/-- Execute the fetched word `w` of a state that has not yet advanced (R102, R103, R104, R106). -/
def State.runWord (s : State) (w : Word) : Result :=
  match decode w with
  | .instr i => exec i s.advance
  | .unknown w => .next (s.advance.emit (.unknownOpcode w s.pc))
  | .truncated => .next (s.advance.emit (.unknownOpcode w s.pc))

/-- The whole of `exec` under a memory policy (R107): the fault gate (R105), the fetch, which an out-of-range address
faults before anything else (R226), the advance and the action. -/
def State.cycleUnder (policy : MemOobPolicy) (s : State) : Result :=
  match s.fault with
  | some _ => .next s
  | none =>
    match outOfRange policy s.pc.toNat 2 with
    | some bad => .next (s.advance.raiseFault .addressRange (Config.unfetchedWord s.pc) (some bad))
    | none => s.runWord s.fetchWord

/-- The whole of `exec` (R107). -/
def State.cycle (s : State) : Result := s.cycleUnder Config.memOobPolicy

/-- Begin an operation: it has emitted nothing yet (R247; log entry 2). -/
def State.begin (s : State) : State := { s with events := [] }

/-- Tick after an instruction, when asked to (R108). -/
def State.tickIf (s : State) (timerTick : Bool) : State := if timerTick then s.tick else s

/-- Go on from the answer of `exec` with the tick. -/
def tickAfter (timerTick : Bool) (r : Result) : Result :=
  match r with
  | .next s => .next (s.tickIf timerTick)
  | .fault f => .fault f
  | .refused f => .refused f

/-- The operation `exec()` of R100. -/
def State.execOp (s : State) : Result := s.begin.cycle

/-- The operation `tick()` of R100. -/
def State.tickOp (s : State) : State := s.begin.tick

/-- The operation `step(timer_tick)` of R100 and R108. -/
def State.stepOp (s : State) (timerTick : Bool) : Result := tickAfter timerTick s.execOp

/-- Place a word where the next fetch reads, in a state that fetches (log entry 22). -/
def State.placeWord (s : State) (w : Word) : State := { s.storeBlock s.pc.toNat (bytesOfWord w) with fault := none }

end Sys2Proof.Machine
end

