-- ==== Sys2Proof/Machine/Step.lean ====
section
/-!
DEFINITION. One step: the host's next input, then `step(timer_tick)` with the tick that input asks for
(spec/40_cycle.md R108, R109; log entry 1).
-/

namespace Sys2Proof.Machine

/-- One step of the machine. -/
def step (s : State) : Host.Outcome State Fault Refusal := s.hostActs.stepOp s.nextInput.timerTick

/-- `s` with an instruction word stored where `step` fetches its next instruction (log entry 22). -/
def State.withFetchWord (s : State) (nbits w : Nat) : State := s.placeWord (BitVec.ofNat 16 (w % 2 ^ nbits))

end Sys2Proof.Machine
end

