-- ==== Sys2Proof/Safety.lean ====
section
/-!
DEFINITION. The terms claims use: the parts of the Machine, what it means that a step leaves a part as it was, which
parts each instruction writes (spec/10_state.md R20, R24, R25), and the invariant of the model's states.
-/

namespace Sys2Proof.Machine

/-- The parts of the Machine: the fields of R20, and the model's own `events` and `inputs`. -/
inductive Part where
  | memory
  | V
  | I
  | pc
  | stack
  | sp
  | DT
  | ST
  | display
  | keypad
  | redraw
  | fault
  | rng
  | events
  | inputs
  deriving DecidableEq, Repr

/-- The part reads in `t` as it reads in `s`: every byte of memory, every register, every slot, every pixel. -/
def Part.Same (p : Part) (s t : State) : Prop :=
  match p with
  | .memory => ∀ a : Nat, t.memRead a = s.memRead a
  | .V => ∀ r : Reg, t.reg r = s.reg r
  | .I => t.I = s.I
  | .pc => t.pc = s.pc
  | .stack => ∀ j : Fin 16, t.stack[j] = s.stack[j]
  | .sp => t.sp = s.sp
  | .DT => t.DT = s.DT
  | .ST => t.ST = s.ST
  | .display => ∀ (col : Fin 64) (row : Fin 32), t.display.get col row = s.display.get col row
  | .keypad => ∀ k : Key, t.keypad[k] = s.keypad[k]
  | .redraw => t.redraw = s.redraw
  | .fault => t.fault = s.fault
  | .rng => t.rng = s.rng
  | .events => t.events = s.events
  | .inputs => t.inputs = s.inputs

/-- The frame: every part but the named ones is as it was. -/
def KeepsAllBut (changed : List Part) (s t : State) : Prop := ∀ p : Part, p ∉ changed → p.Same s t

/-- The parts each instruction may write (the "written by" column of R20, R24, R25, R27, R29, R30, R32, R33), with what
entering the fault state writes for the four instructions that can fault (R223, R224). -/
def writes (i : Instr) : List Part :=
  match i with
  | .cls => [.display, .redraw]
  | .ret => [.pc, .sp, .fault, .events]
  | .jp _ | .jpV0 _ => [.pc]
  | .call _ => [.pc, .stack, .sp, .fault, .events]
  | .seImm _ _ | .sneImm _ _ | .seReg _ _ | .sneReg _ _ => [.pc]
  | .ldImm _ _ | .addImm _ _ | .ldReg _ _ => [.V]
  | .orReg _ _ | .andReg _ _ | .xorReg _ _ => [.V]
  | .addReg _ _ | .sub _ _ | .shr _ _ | .subn _ _ | .shl _ _ => [.V]
  | .rnd _ _ => [.V, .rng]
  | .ldI _ | .addI _ | .ldF _ => [.I]
  | .ldB _ | .ldMemStore _ => [.memory]
  | .ldMemLoad _ => [.V]
  | .drw _ _ _ => [.V, .display, .redraw]
  | .skp _ | .sknp _ => [.pc, .fault, .events]
  | .ldVxDt _ => [.V]
  | .ldVxK _ => [.V, .pc]
  | .ldDt _ => [.DT]
  | .ldSt _ => [.ST]

/-- The registers each instruction may write (the last column of R24). -/
def writesReg (i : Instr) (r : Reg) : Prop :=
  match i with
  | .ldImm x _ | .addImm x _ | .ldReg x _ | .orReg x _ | .andReg x _ | .xorReg x _ => r = x
  | .addReg x _ | .sub x _ | .shr x _ | .subn x _ | .shl x _ => r = VF ∨ r = x
  | .rnd x _ | .ldVxDt x | .ldVxK x => r = x
  | .drw _ _ _ => r = VF
  | .ldMemLoad x => r ≤ x
  | .cls | .ret | .jp _ | .call _ | .ldI _ | .jpV0 _ => False
  | .seImm _ _ | .sneImm _ _ | .seReg _ _ | .sneReg _ _ => False
  | .skp _ | .sknp _ | .ldDt _ | .ldSt _ | .addI _ | .ldF _ | .ldB _ | .ldMemStore _ => False

/-- The encoding of an instruction (R85): every word `w` with `w AND mask == bits` decodes to it, with the fields of `w`. -/
def DecodesAs (bits mask : Word) (i : Word → Instr) : Prop := ∀ w : Word, w &&& mask = bits → decode w = .instr (i w)

/-- The unknown space, as R86 lists it. -/
def UnknownSpace (w : Word) : Prop :=
  (fieldOp w = 0x0 ∧ w ≠ 0x00E0 ∧ w ≠ 0x00EE) ∨
  (fieldOp w = 0x5 ∧ fieldN w ≠ 0) ∨
  (fieldOp w = 0x8 ∧ fieldN w ∈ [0x8, 0x9, 0xA, 0xB, 0xC, 0xD, 0xF]) ∨
  (fieldOp w = 0x9 ∧ fieldN w ≠ 0) ∨
  (fieldOp w = 0xE ∧ (fieldKK w).toNat ∉ [0x9E, 0xA1]) ∨
  (fieldOp w = 0xF ∧ (fieldKK w).toNat ∉ [0x07, 0x0A, 0x15, 0x18, 0x1E, 0x29, 0x33, 0x55, 0x65])

/-- A set sprite bit of `Dxyn`, executed in `s`, addresses the pixel `(col, row)` (R191, R192, R193). -/
def SpriteAddresses (s : State) (x y : Reg) (n : Nat) (col : Fin 64) (row : Fin 32) : Prop :=
  ∃ r < n, ∃ c < 8, (s.memRead (s.I.toNat + r)).getLsbD (7 - c) = true ∧
    col.val = ((s.reg x).toNat % 64 + c) % 64 ∧ row.val = ((s.reg y).toNat % 32 + r) % 32

/-- Steps that lead from one state to another, through states that all meet `P`, both ends among them. -/
inductive StepsWhile (P : State → Prop) : State → State → Prop where
  | here {s : State} : P s → StepsWhile P s s
  | more {s t u : State} : P s → step s = .next t → StepsWhile P t u → StepsWhile P s u

/-- The core executes: it is not in the fault state (R105). -/
def State.Running (s : State) : Prop := s.fault = none

/-- The fault record tells the truth of the state it stands in: the fault is precise (R223, R224). -/
def FaultRecord.TrueOf (r : FaultRecord) (s : State) : Prop :=
  s.pc = r.addr ∧
  match r.kind with
  | .stackOverflow => s.sp.val = 16 ∧ r.info = none ∧ ∃ nnn : Addr, r.word = encode (.call nnn)
  | .stackUnderflow => s.sp.val = 0 ∧ r.info = none ∧ r.word = encode .ret
  | .keyIndex => ∃ x : Reg, (r.word = encode (.skp x) ∨ r.word = encode (.sknp x)) ∧
      15 < (s.reg x).toNat ∧ r.info = some (s.reg x).toNat
  | .addressRange => False

/-- The invariant of the model's states: memory is canonical, and a fault record is true of the state. -/
def State.Inv (s : State) : Prop := s.memory.wf ∧ ∀ r : FaultRecord, s.fault = some r → r.TrueOf s

end Sys2Proof.Machine
end

