-- ==== Sys2Proof/Certificates/Slice0/Obligations.lean ====
section
/-!
DEFINITION. The statements for the provers. Every one about an instruction is about `exec` on a state whose `pc` is
already advanced (spec/40_cycle.md R102); `StepRunsTheDecodedInstruction` carries them to `step`.
-/

open Sys2Proof Sys2Proof.Machine

/-! ## Reset, load -/

/-- R38, R260: what `init` leaves. FONT is a named constant whose bytes are PRESUMED (log entry 4); that `fault` is none
and that `redraw` is clear are the spec's own inferences. -/
def Obligations.InitLeavesTheResetValues : Prop :=
  ∀ s : State,
    (∀ a < 80, s.init.memRead a = Config.font.getD a 0) ∧ (∀ a, 80 ≤ a → a < 4096 → s.init.memRead a = 0) ∧
    (∀ r : Reg, s.init.reg r = 0) ∧ s.init.I = 0 ∧ s.init.pc = 0x200 ∧
    (∀ j : Fin 16, s.init.stack[j] = 0) ∧ s.init.sp = 0 ∧ s.init.DT = 0 ∧ s.init.ST = 0 ∧
    (∀ (col : Fin 64) (row : Fin 32), s.init.display.get col row = false) ∧
    (∀ k : Key, s.init.keypad[k] = false) ∧ s.init.redraw = false ∧ s.init.fault = none ∧ s.init.events = [] ∧
    State.reset.init = State.reset

/-- R261: `load` copies a program that fits to 0x200 and up, byte by byte, and changes nothing else; one that does not
fit changes nothing. That this holds of a load at any time, and not only right after `init`, is the spec's decision D20
(R262, log entry 18). -/
def Obligations.LoadCopiesTheProgramOrNothing : Prop :=
  ∀ (s : State) (bytes : List Byte),
    (bytes.length ≤ 4096 - 0x200 →
      (s.load bytes).2 = .ok ∧
      (∀ j (h : j < bytes.length), (s.load bytes).1.memRead (0x200 + j) = bytes[j]) ∧
      (∀ a < 4096, ¬ (0x200 ≤ a ∧ a < 0x200 + bytes.length) → (s.load bytes).1.memRead a = s.memRead a) ∧
      KeepsAllBut [.memory] s (s.load bytes).1) ∧
    (4096 - 0x200 < bytes.length → s.load bytes = (s, .romTooLarge))

/-- R263: after `init` and a failed `load`, whatever the host then does between the steps, the machine steps through zeroed
memory up to its end: each step is an unknown opcode 0x0000, reported, and only the advance, the report and the host's own
accesses change anything. The report's form is the spec's decision D19 (log entry 30); that `redraw` and `fault` start as
`init` leaves them is log entry 25, and the host's accesses are log entry 1. -/
def Obligations.FailedLoadStepsThroughZeros : Prop :=
  ∀ (s : State) (bytes : List Byte), 3584 < bytes.length →
    s.init.load bytes = (s.init, .romTooLarge) ∧
    ∀ k < 1792, ∃ t u : State, core.run k (s.init.load bytes).1 = .next t ∧ step t = .next u ∧
      t.pc.toNat = 0x200 + 2 * k ∧ u.pc.toNat = 0x200 + 2 * k + 2 ∧ u.events = [.unknownOpcode 0x0000 t.pc] ∧
      KeepsAllBut [.pc, .events, .keypad, .redraw, .inputs] s.init t ∧
      KeepsAllBut [.pc, .events, .keypad, .redraw, .inputs] t u

/-! ## Words: decode and encode -/

/-- R84, R90: words written out from the patterns decode to the instructions they stand for. -/
def Obligations.FamilyWordsDecode : Prop :=
  decode 0x00E0 = .instr .cls ∧ decode 0x00EE = .instr .ret ∧ decode 0x1ABC = .instr (.jp 0xABC) ∧
  decode 0x8354 = .instr (.addReg 3 5) ∧ decode 0xA2F0 = .instr (.ldI 0x2F0) ∧ decode 0xD015 = .instr (.drw 0 1 5) ∧
  decode 0xE59E = .instr (.skp 5) ∧ decode 0xFA33 = .instr (.ldB 0xA) ∧ decode 0x0123 = .unknown 0x0123

/-- R84, R90: decoding the word of a well-formed instruction gives it back, every operand at every value. -/
def Obligations.DecodeOfEncode : Prop := ∀ i : Instr, WellFormed i = true → decode (encode i) = .instr i

/-- R84, R90: a word that decodes to an instruction is that instruction's word, and the instruction is well formed: no
bit of the word is dropped. -/
def Obligations.EncodeOfDecode : Prop := ∀ (w : Word) (i : Instr), decode w = .instr i → WellFormed i = true ∧ encode i = w

/-- R85: a word selects a row of the opcode map exactly when it decodes to an instruction of that row. -/
def Obligations.DecodeFollowsTheOpcodeMap : Prop :=
  ∀ w : Word,
    (∀ row ∈ opcodeMap, row.selects w → ∃ i, decode w = .instr i ∧ mnemonic i = row.mnemonic) ∧
    (∀ i, decode w = .instr i → ∃ row ∈ opcodeMap, row.mnemonic = mnemonic i ∧ row.selects w)

/-- R84, R85: the opcode map has 34 rows, and no word matches two of them. -/
def Obligations.OpcodePatternsAreDisjoint : Prop :=
  opcodeMap.length = 34 ∧
  ∀ w : Word, ∀ r₁ ∈ opcodeMap, ∀ r₂ ∈ opcodeMap, r₁.selects w → r₂.selects w → r₁ = r₂

/-- R86, R106: the unknown space is exactly the list given, it is what selects no row, and such a word is a no-op that is
reported and does not halt, at the already-advanced `pc`. Which words are unknown is the spec's decision D18 (log entry 14),
the form of the report its decision D19 (log entry 30). -/
def Obligations.UnknownSpaceIsExact : Prop :=
  ∀ w : Word,
    (decode w = .unknown w ↔ UnknownSpace w) ∧ (UnknownSpace w ↔ ∀ row ∈ opcodeMap, ¬ row.selects w) ∧
    ∀ s : State, s.Running → s.fetchWord = w → UnknownSpace w →
      ∃ t, s.cycle = .next t ∧ t.pc = s.pc + 2 ∧ t.Running ∧ t.events = s.events ++ [.unknownOpcode w s.pc] ∧
        KeepsAllBut [.pc, .events] s t

/-! ## The cycle -/

/-- R101: the fetched word is the two bytes at `pc`, combined big-endian, and it is the word `exec` runs. That each address
is reduced to 12 bits (R52) is the spec's decision D5 (log entry 6). -/
def Obligations.FetchIsBigEndian : Prop :=
  ∀ s : State,
    s.fetchWord.toNat = (s.memRead s.pc.toNat).toNat * 256 + (s.memRead (s.pc.toNat + 1)).toNat ∧
    (∀ a : Nat, s.memRead a = s.memRead (a % 4096)) ∧
    (s.Running → s.cycle = s.runWord s.fetchWord)

/-- R101 to R104, R108, R109: a step of a running machine whose fetched word decodes to `i` is `exec i` on the state after
the host's accesses and the advance, and then the tick the host asked for. The host's inputs are the model's form of
the arguments of `step(timer_tick)` (log entry 1). -/
def Obligations.StepRunsTheDecodedInstruction : Prop :=
  ∀ (s : State) (i : Instr), s.Running → decode s.fetchWord = .instr i →
    step s = tickAfter s.nextInput.timerTick (exec i s.hostActs.begin.advance) ∧
    s.hostActs.begin.advance.pc = s.pc + 2 ∧
    KeepsAllBut [.pc, .keypad, .redraw, .events, .inputs] s s.hostActs.begin.advance

/-- R106: an unknown opcode changes nothing but the advance and is reported with its word and address (the form of the
report is the spec's decision D19, log entry 30). -/
def Obligations.UnknownOpcodeIsAReportedNoOp : Prop :=
  ∀ s : State, s.Running → decode s.fetchWord = .unknown s.fetchWord →
    ∃ t, s.cycle = .next t ∧ t.pc = s.pc + 2 ∧ t.events = s.events ++ [.unknownOpcode s.fetchWord s.pc] ∧
      KeepsAllBut [.pc, .events] s t

/-- R108: the tick comes after the instruction: a timer written in a step that ticks is decremented in that step, and
Fx07 reads the timer before that tick. That the cue of such a step comes from the tick's 1 to 0 alone (R207, R231, R233),
so that an Fx18 of 0 emits none whatever ST held, is the spec's decision D17 (log entry 17). -/
def Obligations.TickComesAfterTheInstruction : Prop :=
  ∀ (s : State) (x : Reg), s.Running →
    (decode s.fetchWord = .instr (.ldDt x) → ∃ t, s.stepOp true = .next t ∧ t.DT.toNat = (s.reg x).toNat - 1) ∧
    (decode s.fetchWord = .instr (.ldSt x) → ∃ t, s.stepOp true = .next t ∧ t.ST.toNat = (s.reg x).toNat - 1 ∧
      t.events = if s.reg x = 1 then [.toneCue] else []) ∧
    (decode s.fetchWord = .instr (.ldVxDt x) → ∃ t, s.stepOp true = .next t ∧ t.reg x = s.DT ∧ t.DT.toNat = s.DT.toNat - 1) ∧
    s.stepOp false = s.execOp

/-- R110: every step returns normally: in no state does a step, or an instruction, end in a fault or a refusal of the
model. -/
def Obligations.EveryStepReturnsNormally : Prop :=
  (∀ s : State, ∃ t, step s = .next t) ∧ ∀ (i : Instr) (s : State), ∃ t, exec i s = .next t

/-- R247: a step emits at most one event of `exec`, which is no tone cue, and then at most one tone cue of `tick`. -/
def Obligations.EventsOfAStep : Prop :=
  ∀ s t : State, step s = .next t →
    ∃ ofExec ofTick : List Event, t.events = ofExec ++ ofTick ∧ ofExec.length ≤ 1 ∧ Event.toneCue ∉ ofExec ∧
      (ofTick = [] ∨ ofTick = [.toneCue])

/-! ## Control flow -/

/-- R121, R129: a jump sets `pc` to its target (with V0 added, at full width, for Bnnn) and changes nothing else. That a jump
to itself leaves the whole machine unchanged is the spec's inference in R111. -/
def Obligations.JumpsSetPc : Prop :=
  (∀ (nnn : Addr) (s : State), ∃ t, exec (.jp nnn) s = .next t ∧ t.pc.toNat = nnn.toNat ∧ KeepsAllBut [.pc] s t) ∧
  (∀ (nnn : Addr) (s : State), ∃ t, exec (.jpV0 nnn) s = .next t ∧ t.pc.toNat = nnn.toNat + (s.reg 0).toNat ∧
    KeepsAllBut [.pc] s t) ∧
  (∀ (nnn : Addr) (s : State), s.Running → decode s.fetchWord = .instr (.jp nnn) → s.pc.toNat = nnn.toNat →
    s.cycle = .next s) ∧
  DecodesAs 0x1000 0xF000 (fun w => .jp (fieldNNN w)) ∧ DecodesAs 0xB000 0xF000 (fun w => .jpV0 (fieldNNN w))

/-- R122: a call with room pushes the advanced `pc` and jumps. -/
def Obligations.CallPushesTheReturnAddress : Prop :=
  (∀ (nnn : Addr) (s : State), s.sp.val < 16 →
    ∃ t, exec (.call nnn) s = .next t ∧ t.pc.toNat = nnn.toNat ∧ t.sp.val = s.sp.val + 1 ∧
      (∀ j : Fin 16, t.stack[j] = if j.val = s.sp.val then s.pc else s.stack[j]) ∧
      KeepsAllBut [.pc, .stack, .sp] s t) ∧
  DecodesAs 0x2000 0xF000 (fun w => .call (fieldNNN w))

/-- R120: a return with a live entry pops it into `pc`; the slot keeps its value (R37). -/
def Obligations.ReturnPopsTheReturnAddress : Prop :=
  (∀ (s : State) (j : Fin 16), s.sp.val = j.val + 1 →
    ∃ t, exec .ret s = .next t ∧ t.pc = s.stack[j] ∧ t.sp.val = j.val ∧ KeepsAllBut [.pc, .sp] s t) ∧
  DecodesAs 0x00EE 0xFFFF (fun _ => .ret)

/-- R123: whatever runs between a call and its matching return, as long as the stack stays above the call's level, the
return goes to the word after the call and gives `sp` its value from before the call. -/
def Obligations.CallThenReturn : Prop :=
  ∀ (s : State) (nnn : Addr), s.Running → decode s.fetchWord = .instr (.call nnn) → s.sp.val < 16 →
    ∃ t, step s = .next t ∧
      ∀ u : State, StepsWhile (fun v => s.sp.val < v.sp.val) t u →
        u.Running → decode u.fetchWord = .instr .ret → u.sp.val = s.sp.val + 1 →
        ∃ r, step u = .next r ∧ r.pc = s.pc + 2 ∧ r.sp = s.sp

/-- R124 to R127: the four skips on register values: a taken skip adds 2 to the advanced `pc`, an untaken one adds
nothing; nothing else changes. That a word 5xyN or 9xyN with N other than 0 is an unknown opcode is the spec's decision D18
(90_conflicts.md C3, log entry 14); that the skip wraps at 65536 is its decision D22 (log entry 16). -/
def Obligations.SkipsOnRegisterValues : Prop :=
  (∀ (x : Reg) (kk : Byte) (s : State), ∃ t, exec (.seImm x kk) s = .next t ∧
    t.pc = (if s.reg x = kk then s.pc + 2 else s.pc) ∧ KeepsAllBut [.pc] s t) ∧
  (∀ (x : Reg) (kk : Byte) (s : State), ∃ t, exec (.sneImm x kk) s = .next t ∧
    t.pc = (if s.reg x ≠ kk then s.pc + 2 else s.pc) ∧ KeepsAllBut [.pc] s t) ∧
  (∀ (x y : Reg) (s : State), ∃ t, exec (.seReg x y) s = .next t ∧
    t.pc = (if s.reg x = s.reg y then s.pc + 2 else s.pc) ∧ KeepsAllBut [.pc] s t) ∧
  (∀ (x y : Reg) (s : State), ∃ t, exec (.sneReg x y) s = .next t ∧
    t.pc = (if s.reg x ≠ s.reg y then s.pc + 2 else s.pc) ∧ KeepsAllBut [.pc] s t) ∧
  DecodesAs 0x3000 0xF000 (fun w => .seImm (fieldX w) (fieldKK w)) ∧
  DecodesAs 0x4000 0xF000 (fun w => .sneImm (fieldX w) (fieldKK w)) ∧
  DecodesAs 0x5000 0xF00F (fun w => .seReg (fieldX w) (fieldY w)) ∧
  DecodesAs 0x9000 0xF00F (fun w => .sneReg (fieldX w) (fieldY w)) ∧
  (∀ w : Word, fieldOp w = 5 ∨ fieldOp w = 9 → fieldN w ≠ 0 → decode w = .unknown w)

/-! ## Loads, arithmetic, random -/

/-- R140, R141, R142: load immediate (with the source's law: `Vx = kk` and `pc` advanced by 2), add immediate (no flag),
register copy. -/
def Obligations.LoadAndAddImmediate : Prop :=
  (∀ (x : Reg) (kk : Byte) (s : State), ∃ t, exec (.ldImm x kk) s = .next t ∧ t.reg x = kk ∧
    (∀ r, r ≠ x → t.reg r = s.reg r) ∧ KeepsAllBut [.V] s t) ∧
  (∀ (x : Reg) (kk : Byte) (s : State), s.Running → decode s.fetchWord = .instr (.ldImm x kk) →
    ∃ t, s.cycle = .next t ∧ t.reg x = kk ∧ t.pc = s.pc + 2) ∧
  (∀ (x : Reg) (kk : Byte) (s : State), ∃ t, exec (.addImm x kk) s = .next t ∧
    (t.reg x).toNat = ((s.reg x).toNat + kk.toNat) % 256 ∧
    (∀ r, r ≠ x → t.reg r = s.reg r) ∧ KeepsAllBut [.V] s t) ∧
  (∀ (x y : Reg) (s : State), ∃ t, exec (.ldReg x y) s = .next t ∧ t.reg x = s.reg y ∧
    (∀ r, r ≠ x → t.reg r = s.reg r) ∧ KeepsAllBut [.V] s t) ∧
  DecodesAs 0x6000 0xF000 (fun w => .ldImm (fieldX w) (fieldKK w)) ∧
  DecodesAs 0x7000 0xF000 (fun w => .addImm (fieldX w) (fieldKK w)) ∧
  DecodesAs 0x8000 0xF00F (fun w => .ldReg (fieldX w) (fieldY w))

/-- R143, R144, R145: bitwise OR, AND, XOR, bit by bit; VF is changed only as the destination (for OR the spec's decision
D4). -/
def Obligations.LogicIsBitwise : Prop :=
  (∀ (x y : Reg) (s : State), ∃ t, exec (.orReg x y) s = .next t ∧
    (∀ k < 8, (t.reg x).getLsbD k = ((s.reg x).getLsbD k || (s.reg y).getLsbD k)) ∧
    (∀ r, r ≠ x → t.reg r = s.reg r) ∧ KeepsAllBut [.V] s t) ∧
  (∀ (x y : Reg) (s : State), ∃ t, exec (.andReg x y) s = .next t ∧
    (∀ k < 8, (t.reg x).getLsbD k = ((s.reg x).getLsbD k && (s.reg y).getLsbD k)) ∧
    (∀ r, r ≠ x → t.reg r = s.reg r) ∧ KeepsAllBut [.V] s t) ∧
  (∀ (x y : Reg) (s : State), ∃ t, exec (.xorReg x y) s = .next t ∧
    (∀ k < 8, (t.reg x).getLsbD k = ((s.reg x).getLsbD k ^^ (s.reg y).getLsbD k)) ∧
    (∀ r, r ≠ x → t.reg r = s.reg r) ∧ KeepsAllBut [.V] s t) ∧
  DecodesAs 0x8001 0xF00F (fun w => .orReg (fieldX w) (fieldY w)) ∧
  DecodesAs 0x8002 0xF00F (fun w => .andReg (fieldX w) (fieldY w)) ∧
  DecodesAs 0x8003 0xF00F (fun w => .xorReg (fieldX w) (fieldY w))

/-- R154: the source's laws of 8xy4 and 8xy5 for x other than 0xF (`FlagArithmetic` covers x = 0xF). -/
def Obligations.AddAndSubtractLaws : Prop :=
  ∀ (x y : Reg) (s : State), x ≠ VF →
    (∃ t, exec (.addReg x y) s = .next t ∧ (t.reg VF = 1 ↔ (s.reg x).toNat + (s.reg y).toNat > 255) ∧
      (t.reg VF = 0 ∨ t.reg VF = 1) ∧ (t.reg x).toNat = ((s.reg x).toNat + (s.reg y).toNat) % 256) ∧
    (∃ t, exec (.sub x y) s = .next t ∧ (t.reg VF = 1 ↔ (s.reg x).toNat > (s.reg y).toNat) ∧
      (t.reg VF = 0 ∨ t.reg VF = 1))

/-- R148 to R152: sum, differences and shifts, each with its flag. The result overwrites the flag when x = 0xF, and the
operands are the values from before the instruction: the spec's decisions D2, D3 (log entry 12). -/
def Obligations.FlagArithmetic : Prop :=
  ∀ (x y : Reg) (s : State),
    (∃ t, exec (.addReg x y) s = .next t ∧ (t.reg x).toNat = ((s.reg x).toNat + (s.reg y).toNat) % 256 ∧
      (x ≠ VF → t.reg VF = if (s.reg x).toNat + (s.reg y).toNat > 255 then 1 else 0) ∧
      (∀ r, r ≠ x → r ≠ VF → t.reg r = s.reg r) ∧ KeepsAllBut [.V] s t) ∧
    (∃ t, exec (.sub x y) s = .next t ∧ (t.reg x).toNat = ((s.reg x).toNat + 256 - (s.reg y).toNat) % 256 ∧
      (x ≠ VF → t.reg VF = if (s.reg x).toNat > (s.reg y).toNat then 1 else 0) ∧
      (∀ r, r ≠ x → r ≠ VF → t.reg r = s.reg r) ∧ KeepsAllBut [.V] s t) ∧
    (∃ t, exec (.shr x y) s = .next t ∧ (t.reg x).toNat = (s.reg x).toNat / 2 ∧
      (x ≠ VF → (t.reg VF).toNat = (s.reg x).toNat % 2) ∧
      (∀ r, r ≠ x → r ≠ VF → t.reg r = s.reg r) ∧ KeepsAllBut [.V] s t) ∧
    (∃ t, exec (.subn x y) s = .next t ∧ (t.reg x).toNat = ((s.reg y).toNat + 256 - (s.reg x).toNat) % 256 ∧
      (x ≠ VF → t.reg VF = if (s.reg y).toNat > (s.reg x).toNat then 1 else 0) ∧
      (∀ r, r ≠ x → r ≠ VF → t.reg r = s.reg r) ∧ KeepsAllBut [.V] s t) ∧
    (∃ t, exec (.shl x y) s = .next t ∧ (t.reg x).toNat = (s.reg x).toNat * 2 % 256 ∧
      (x ≠ VF → (t.reg VF).toNat = (s.reg x).toNat / 128) ∧
      (∀ r, r ≠ x → r ≠ VF → t.reg r = s.reg r) ∧ KeepsAllBut [.V] s t)

/-- R161, R160: a random byte masked by the immediate. The byte is the next one the host has supplied, or else a free
value of which nothing is known (the model's form of the draw, log entry 3); it is used up either way. -/
def Obligations.RandomByteIsMasked : Prop :=
  ∀ (x : Reg) (kk : Byte) (s : State),
    ∃ (rb : Byte) (t : State), exec (.rnd x kk) s = .next t ∧
      (∀ k < 8, (t.reg x).getLsbD k = (rb.getLsbD k && kk.getLsbD k)) ∧
      (∀ (b : Byte) (rest : List Byte), s.rng.supplied = b :: rest → rb = b ∧ t.rng.supplied = rest) ∧
      (s.rng.supplied = [] → rb = Config.randomByte s.rng.drawn ∧ t.rng = { supplied := [], drawn := s.rng.drawn + 1 }) ∧
      (∀ r, r ≠ x → t.reg r = s.reg r) ∧ KeepsAllBut [.V, .rng] s t

/-! ## Index register and memory -/

/-- R172, R175: `I <- nnn`, and `I <- Vx * 5` without masking. -/
def Obligations.IndexLoads : Prop :=
  (∀ (nnn : Addr) (s : State), ∃ t, exec (.ldI nnn) s = .next t ∧ t.I.toNat = nnn.toNat ∧ KeepsAllBut [.I] s t) ∧
  (∀ (x : Reg) (s : State), ∃ t, exec (.ldF x) s = .next t ∧ t.I.toNat = (s.reg x).toNat * 5 ∧ KeepsAllBut [.I] s t) ∧
  DecodesAs 0xA000 0xF000 (fun w => .ldI (fieldNNN w)) ∧ DecodesAs 0xF029 0xF0FF (fun w => .ldF (fieldX w))

/-- R173: `I <- (I + Vx) % 65536`; VF is not written (the spec's decision D11, log entry 11). -/
def Obligations.AddToIndex : Prop :=
  (∀ (x : Reg) (s : State), ∃ t, exec (.addI x) s = .next t ∧ t.I.toNat = (s.I.toNat + (s.reg x).toNat) % 65536 ∧
    KeepsAllBut [.I] s t) ∧
  DecodesAs 0xF01E 0xF0FF (fun w => .addI (fieldX w))

/-- R173, R174: under the alternative `FX1E_VF_FLAG = true`, which the spec has decided against (D11, log entry 11), VF is
written after `I`, from the old `Vx` (the old VF when x = 0xF: the snapshot of R147, the spec's decision D2, log entry 12). -/
def Obligations.AddToIndexWithFlag : Prop :=
  ∀ (x : Reg) (s : State),
    (addIUnder true x s).I.toNat = (s.I.toNat + (s.reg x).toNat) % 65536 ∧
    (addIUnder true x s).reg VF = (if s.I.toNat + (s.reg x).toNat > 0x0FFF then 1 else 0) ∧
    (∀ r, r ≠ VF → (addIUnder true x s).reg r = s.reg r) ∧ KeepsAllBut [.I, .V] s (addIUnder true x s)

/-- R177: the decimal digits of Vx, hundreds first, at `I`, `I + 1`, `I + 2`; every other byte is as before. Where `I` is
4094 or more the addresses are reduced by the spec's decision D5 (log entry 6), and that a store into the font succeeds is
its decision D21 (log entry 15). -/
def Obligations.BcdStoresTheDigits : Prop :=
  (∀ (x : Reg) (s : State), ∃ t, exec (.ldB x) s = .next t ∧
    (t.memRead s.I.toNat).toNat = (s.reg x).toNat / 100 ∧
    (t.memRead (s.I.toNat + 1)).toNat = (s.reg x).toNat / 10 % 10 ∧
    (t.memRead (s.I.toNat + 2)).toNat = (s.reg x).toNat % 10 ∧
    (∀ a : Nat, (∀ i < 3, a % 4096 ≠ (s.I.toNat + i) % 4096) → t.memRead a = s.memRead a) ∧
    KeepsAllBut [.memory] s t) ∧
  DecodesAs 0xF033 0xF0FF (fun w => .ldB (fieldX w))

/-- R178: V0..Vx go to `I .. I + x`; every other byte, and `I`, are as before (the latter the spec's decision D4, log entry
13). That a range past 4095 wraps is its decision D5 (log entry 6), that a store into the font succeeds its decision D21 (log
entry 15). -/
def Obligations.BlockStore : Prop :=
  (∀ (x : Reg) (s : State), ∃ t, exec (.ldMemStore x) s = .next t ∧
    (∀ r : Reg, r ≤ x → t.memRead (s.I.toNat + r.val) = s.reg r) ∧
    (∀ a : Nat, (∀ i ≤ x.val, a % 4096 ≠ (s.I.toNat + i) % 4096) → t.memRead a = s.memRead a) ∧
    KeepsAllBut [.memory] s t) ∧
  DecodesAs 0xF055 0xF0FF (fun w => .ldMemStore (fieldX w))

/-- R179: `I .. I + x` go to V0..Vx; the registers above Vx, and everything else, are as before. That `I` is among what is
unchanged is the spec's decision D4 (log entry 13), and that a range past 4095 wraps its decision D5 (log entry 6). -/
def Obligations.BlockLoad : Prop :=
  (∀ (x : Reg) (s : State), ∃ t, exec (.ldMemLoad x) s = .next t ∧
    (∀ r : Reg, t.reg r = if r ≤ x then s.memRead (s.I.toNat + r.val) else s.reg r) ∧ KeepsAllBut [.V] s t) ∧
  DecodesAs 0xF065 0xF0FF (fun w => .ldMemLoad (fieldX w))

/-- R180: a block load after a block store with the same x, from any state where `I` and the stored bytes are as the
store left them, restores V0..Vx, across the end of memory too (the wrap: the spec's decision D5, log entry 6). -/
def Obligations.StoreThenLoadRestores : Prop :=
  ∀ (x : Reg) (s : State), ∃ t, exec (.ldMemStore x) s = .next t ∧
    ∀ u : State, u.I = t.I → (∀ i ≤ x.val, u.memRead (t.I.toNat + i) = t.memRead (t.I.toNat + i)) →
      ∃ v, exec (.ldMemLoad x) u = .next v ∧ ∀ r : Reg, r ≤ x → v.reg r = s.reg r

/-- R64: a byte stored by Fx55 or Fx33 is fetched by the very next fetch of its address, as the high and as the low byte of
the word. Addresses are compared after the reduction of the spec's decision D5 (log entry 6). -/
def Obligations.FetchSeesStores : Prop :=
  (∀ (x j : Reg) (s : State), j ≤ x → ∃ t, exec (.ldMemStore x) s = .next t ∧
    (t.pc.toNat % 4096 = (s.I.toNat + j.val) % 4096 → t.fetchWord.toNat / 256 = (s.reg j).toNat) ∧
    ((t.pc.toNat + 1) % 4096 = (s.I.toNat + j.val) % 4096 → t.fetchWord.toNat % 256 = (s.reg j).toNat)) ∧
  (∀ (x : Reg) (j digit : Nat) (s : State),
    (j = 0 ∧ digit = (s.reg x).toNat / 100) ∨ (j = 1 ∧ digit = (s.reg x).toNat / 10 % 10) ∨
      (j = 2 ∧ digit = (s.reg x).toNat % 10) →
    ∃ t, exec (.ldB x) s = .next t ∧
      (t.pc.toNat % 4096 = (s.I.toNat + j) % 4096 → t.fetchWord.toNat / 256 = digit) ∧
      ((t.pc.toNat + 1) % 4096 = (s.I.toNat + j) % 4096 → t.fetchWord.toNat % 256 = digit))

/-- R52, R226: under the alternative `MEM_OOB_POLICY = fault`, an access that leaves memory changes nothing but the fault
state, and a fetch that does is checked first (the spec's decision D5; the recorded address, log entry 21). -/
def Obligations.OutOfRangeFaultsUnderTheAlternative : Prop :=
  (∀ (x : Reg) (s : State), s.I.toNat + x.val < 4096 →
    ldMemStoreUnder .fault x s = ldMemStoreUnder .wrap12 x s ∧ ldMemLoadUnder .fault x s = ldMemLoadUnder .wrap12 x s) ∧
  (∀ (x : Reg) (s : State), 4096 ≤ s.I.toNat + x.val →
    ldMemStoreUnder .fault x s = s.raiseFault .addressRange (encode (.ldMemStore x)) (some (max s.I.toNat 4096)) ∧
    ldMemLoadUnder .fault x s = s.raiseFault .addressRange (encode (.ldMemLoad x)) (some (max s.I.toNat 4096))) ∧
  (∀ (x : Reg) (s : State),
    ldBUnder .fault x s = if s.I.toNat + 2 < 4096 then ldBUnder .wrap12 x s
      else s.raiseFault .addressRange (encode (.ldB x)) (some (max s.I.toNat 4096))) ∧
  (∀ (x y : Reg) (n : Nat) (s : State),
    drwUnder .fault x y n s = if n = 0 ∨ s.I.toNat + n ≤ 4096 then drwUnder .wrap12 x y n s
      else s.raiseFault .addressRange (encode (.drw x y n)) (some (max s.I.toNat 4096))) ∧
  (∀ s : State, s.Running → 4095 ≤ s.pc.toNat → ∃ t, s.cycleUnder .fault = .next t ∧
    t.fault = some ⟨.addressRange, s.pc, Config.unfetchedWord s.pc, some (max s.pc.toNat 4096)⟩ ∧
    KeepsAllBut [.fault, .events] s t)

/-! ## Display -/

/-- R190: every pixel 0, `redraw` set. -/
def Obligations.ClearDisplay : Prop :=
  (∀ s : State, ∃ t, exec .cls s = .next t ∧ (∀ (col : Fin 64) (row : Fin 32), t.display.get col row = false) ∧
    t.redraw = true ∧ KeepsAllBut [.display, .redraw] s t) ∧
  DecodesAs 0x00E0 0xFFFF (fun _ => .cls)

/-- R191, R192, R194: a draw flips exactly the pixels a set sprite bit addresses, wrapping; VF is 1 exactly when one of
them was 1, else 0; `redraw` is set. Bit 7 as the leftmost column is PRESUMED (log entry 5); that the
position is that of the old VF for x or y = 0xF is the spec's decision D2 (log entry 12), that sprite rows wrap past 4095 its
decision D5 (log entry 6). -/
def Obligations.DrawFlipsTheAddressedPixels : Prop :=
  (∀ (x y : Reg) (n : Nat) (s : State), n < 16 → ∃ t, exec (.drw x y n) s = .next t ∧
    (∀ (col : Fin 64) (row : Fin 32),
      (SpriteAddresses s x y n col row → t.display.get col row = !s.display.get col row) ∧
      (¬ SpriteAddresses s x y n col row → t.display.get col row = s.display.get col row)) ∧
    ((∃ (col : Fin 64) (row : Fin 32), SpriteAddresses s x y n col row ∧ s.display.get col row = true) → t.reg VF = 1) ∧
    ((¬ ∃ (col : Fin 64) (row : Fin 32), SpriteAddresses s x y n col row ∧ s.display.get col row = true) → t.reg VF = 0) ∧
    t.redraw = true ∧ (∀ r, r ≠ VF → t.reg r = s.reg r) ∧ KeepsAllBut [.V, .display, .redraw] s t) ∧
  DecodesAs 0xD000 0xF000 (fun w => .drw (fieldX w) (fieldY w) (fieldN w))

/-- R195: drawing the same sprite twice at the same position restores the display, and the second draw sets VF exactly
when an addressed pixel was 0 before the first. The law needs x and y other than 0xF. -/
def Obligations.DrawingTwiceRestoresTheDisplay : Prop :=
  ∀ (x y : Reg) (n : Nat) (s : State), n < 16 → x ≠ VF → y ≠ VF →
    ∃ t, exec (.drw x y n) s = .next t ∧
      ∀ u : State, (∀ (col : Fin 64) (row : Fin 32), u.display.get col row = t.display.get col row) →
        u.reg x = t.reg x → u.reg y = t.reg y → u.I = t.I →
        (∀ r < n, u.memRead (t.I.toNat + r) = t.memRead (t.I.toNat + r)) →
        ∃ v, exec (.drw x y n) u = .next v ∧
          (∀ (col : Fin 64) (row : Fin 32), v.display.get col row = s.display.get col row) ∧
          (v.reg VF = 1 ↔ ∃ (col : Fin 64) (row : Fin 32), SpriteAddresses s x y n col row ∧ s.display.get col row = false)

/-- R176: after Fx29 with a digit d, where memory still holds the font, a 5-row draw at the origin flips exactly the
pixels of FONT's glyph of d (a named constant, PRESUMED, log entry 4). -/
def Obligations.GlyphOfADigit : Prop :=
  ∀ (x : Reg) (d : Nat) (s : State), d < 16 → (s.reg x).toNat = d → (∀ a < 80, s.memRead a = Config.font.getD a 0) →
    ∃ t, exec (.ldF x) s = .next t ∧
      ∀ (x' y' : Reg), t.reg x' = 0 → t.reg y' = 0 → ∃ u, exec (.drw x' y' 5) t = .next u ∧
        ∀ (col : Fin 64) (row : Fin 32), u.display.get col row =
          ((decide (row.val < 5 ∧ col.val < 8) && (Config.font.getD (5 * d + row.val) 0).getLsbD (7 - col.val)) ^^
            s.display.get col row)

/-- R196, R32: every 00E0 and every Dxyn sets `redraw`; no other instruction writes it, so none clears it; the host's
clearing does. -/
def Obligations.RedrawIsSetByClearAndDraw : Prop :=
  (∀ s : State, ∃ t, exec .cls s = .next t ∧ t.redraw = true) ∧
  (∀ (x y : Reg) (n : Nat) (s : State), ∃ t, exec (.drw x y n) s = .next t ∧ t.redraw = true) ∧
  (∀ (i : Instr) (s t : State), exec i s = .next t →
    (s.redraw = true → t.redraw = true) ∧
    ((t.redraw ≠ s.redraw) → i = .cls ∨ ∃ x y n, i = .drw x y n)) ∧
  (∀ s : State, s.clearRedraw.redraw = false ∧ KeepsAllBut [.redraw] s s.clearRedraw)

/-! ## Keys and timers -/

/-- R200, R201: with a key's number in Vx, Ex9E skips when the key is pressed and ExA1 when it is not. -/
def Obligations.SkipsOnKeys : Prop :=
  (∀ (x : Reg) (k : Key) (s : State), (s.reg x).toNat = k.val → ∃ t, exec (.skp x) s = .next t ∧
    t.pc = (if s.keypad[k] = true then s.pc + 2 else s.pc) ∧ KeepsAllBut [.pc] s t) ∧
  (∀ (x : Reg) (k : Key) (s : State), (s.reg x).toNat = k.val → ∃ t, exec (.sknp x) s = .next t ∧
    t.pc = (if s.keypad[k] = false then s.pc + 2 else s.pc) ∧ KeepsAllBut [.pc] s t) ∧
  DecodesAs 0xE09E 0xF0FF (fun w => .skp (fieldX w)) ∧ DecodesAs 0xE0A1 0xF0FF (fun w => .sknp (fieldX w))

/-- R204: with a key pressed, Fx0A loads the lowest pressed key's number (the lowest: the spec's decision D9, log entry
10); with none, it undoes the advance and changes nothing else. -/
def Obligations.KeyWaitTakesTheLowestKey : Prop :=
  (∀ (x : Reg) (k : Key) (s : State), s.keypad[k] = true → (∀ j : Key, j < k → s.keypad[j] = false) →
    ∃ t, exec (.ldVxK x) s = .next t ∧ (t.reg x).toNat = k.val ∧ (∀ r, r ≠ x → t.reg r = s.reg r) ∧ KeepsAllBut [.V] s t) ∧
  (∀ (x : Reg) (s : State), (∀ j : Key, s.keypad[j] = false) →
    ∃ t, exec (.ldVxK x) s = .next t ∧ t.pc = s.pc - 2 ∧ KeepsAllBut [.pc] s t) ∧
  DecodesAs 0xF00A 0xF0FF (fun w => .ldVxK (fieldX w))

/-- R205: on an Fx0A with no key pressed and a host that presses none, whether or not it writes the keys (R237: an
all-released vector at every poll), any number of steps leave `pc` and the registers as they are: the wait never ends and
never halts. -/
def Obligations.KeyWaitSpins : Prop :=
  ∀ (x : Reg) (s : State), s.Running → decode s.fetchWord = .instr (.ldVxK x) → (∀ j : Key, s.keypad[j] = false) →
    (∀ h ∈ s.inputs, ∀ keys : Keypad, h.keys = some keys → ∀ j : Key, keys[j] = false) →
    ∀ k : Nat, ∃ t, core.run k s = .next t ∧ KeepsAllBut [.DT, .ST, .redraw, .events, .inputs] s t

/-- R205: once a key is pressed, the next step loads its number and advances `pc` by 2. -/
def Obligations.KeyWaitEnds : Prop :=
  ∀ (x : Reg) (k : Key) (s : State), s.Running → decode s.fetchWord = .instr (.ldVxK x) →
    s.hostActs.keypad[k] = true → (∀ j : Key, j ≠ k → s.hostActs.keypad[j] = false) →
    ∃ t, step s = .next t ∧ (t.reg x).toNat = k.val ∧ t.pc = s.pc + 2 ∧ (∀ r, r ≠ x → t.reg r = s.reg r)

/-- R203, R206, R207: the moves between a register and the timers. A tick after them decrements what they wrote, and only
a tick emits the tone cue: that an Fx18 emits none, a 0 written over a positive ST included, is the spec's decision D17
(90_conflicts.md C2, log entry 17). -/
def Obligations.TimerMoves : Prop :=
  (∀ (x : Reg) (s : State), ∃ t, exec (.ldVxDt x) s = .next t ∧ t.reg x = s.DT ∧ (t.tickIf true).reg x = s.DT ∧
    (∀ r, r ≠ x → t.reg r = s.reg r) ∧ KeepsAllBut [.V] s t) ∧
  (∀ (x : Reg) (s : State), ∃ t, exec (.ldDt x) s = .next t ∧ t.DT = s.reg x ∧
    (t.tickIf true).DT.toNat = (s.reg x).toNat - 1 ∧ KeepsAllBut [.DT] s t) ∧
  (∀ (x : Reg) (s : State), ∃ t, exec (.ldSt x) s = .next t ∧ t.ST = s.reg x ∧ t.events = s.events ∧
    (s.reg x = 1 → (t.tickIf true).ST = 0 ∧ (t.tickIf true).events = s.events ++ [.toneCue]) ∧
    KeepsAllBut [.ST] s t) ∧
  DecodesAs 0xF007 0xF0FF (fun w => .ldVxDt (fieldX w)) ∧ DecodesAs 0xF015 0xF0FF (fun w => .ldDt (fieldX w)) ∧
  DecodesAs 0xF018 0xF0FF (fun w => .ldSt (fieldX w))

/-- R231: a tick decrements each timer that is nonzero, emits the tone cue exactly when the sound timer goes from 1 to 0,
and touches nothing else. -/
def Obligations.TickCountsDown : Prop :=
  ∀ s : State,
    s.tick.DT.toNat = s.DT.toNat - 1 ∧ s.tick.ST.toNat = s.ST.toNat - 1 ∧
    (s.ST.toNat = 1 → s.tick.events = s.events ++ [.toneCue]) ∧ (s.ST.toNat ≠ 1 → s.tick.events = s.events) ∧
    KeepsAllBut [.DT, .ST, .events] s s.tick

/-- R232: k ticks turn a timer's value d into max(d - k, 0), and emit the tone cue once in all if the sound timer runs
out within them, else never. -/
def Obligations.TicksReachZeroAndStay : Prop :=
  ∀ (s : State) (k : Nat),
    (Nat.iterate State.tick k s).DT.toNat = s.DT.toNat - k ∧ (Nat.iterate State.tick k s).ST.toNat = s.ST.toNat - k ∧
    (Nat.iterate State.tick k s).events = s.events ++ (if 1 ≤ s.ST.toNat ∧ s.ST.toNat ≤ k then [.toneCue] else [])

/-! ## Faults -/

/-- R223: a call on a full stack and a return on an empty one are precise faults: `exec` changes nothing but the fault
record and the event, `pc` included (the spec's decision D6, log entry 7). -/
def Obligations.StackFaultsArePrecise : Prop :=
  (∀ (nnn : Addr) (s : State), s.Running → decode s.fetchWord = .instr (.call nnn) → s.sp.val = 16 →
    s.cycle = .next { s with
      fault := some ⟨.stackOverflow, s.pc, s.fetchWord, none⟩, events := s.events ++ [.fault .stackOverflow s.pc] }) ∧
  (∀ s : State, s.Running → decode s.fetchWord = .instr .ret → s.sp.val = 0 →
    s.cycle = .next { s with
      fault := some ⟨.stackUnderflow, s.pc, s.fetchWord, none⟩, events := s.events ++ [.fault .stackUnderflow s.pc] })

/-- R202, R224: a key test on a value above 15 is a precise fault that records the value (the spec's decision D8, log
entry 9). -/
def Obligations.KeyIndexFaultsArePrecise : Prop :=
  ∀ (x : Reg) (s : State), s.Running →
    decode s.fetchWord = .instr (.skp x) ∨ decode s.fetchWord = .instr (.sknp x) → 15 < (s.reg x).toNat →
    s.cycle = .next { s with
      fault := some ⟨.keyIndex, s.pc, s.fetchWord, some (s.reg x).toNat⟩, events := s.events ++ [.fault .keyIndex s.pc] }

/-- R105, R225, R235: in the fault state no number of steps executes anything: only the timers and what the host itself
does move, the first record is kept, and `init` leaves the state (the spec's decision D7, log entry 8). -/
def Obligations.FaultStateIsInert : Prop :=
  ∀ (s : State) (r : FaultRecord), s.fault = some r →
    (∀ k : Nat, ∃ t, core.run k s = .next t ∧
      KeepsAllBut [.DT, .ST, .keypad, .redraw, .events, .inputs] s t) ∧
    s.cycle = .next s ∧ (∀ timerTick : Bool, s.stepOp timerTick = .next (s.begin.tickIf timerTick)) ∧
    s.init.fault = none

/-! ## The whole machine -/

/-- R20, R24, R25, R27, R29, R51, R104: an instruction changes only the parts, and only the registers, that the spec's
tables say it writes. -/
def Obligations.InstructionsWriteOnlyTheirParts : Prop :=
  ∀ (i : Instr) (s t : State), exec i s = .next t →
    KeepsAllBut (writes i) s t ∧ ∀ r : Reg, ¬ writesReg i r → t.reg r = s.reg r

/-- R31: no instruction writes `keypad`; over a step it is what the host left before it. -/
def Obligations.KeypadIsTheHosts : Prop :=
  (∀ (i : Instr) (s t : State), exec i s = .next t → ∀ k : Key, t.keypad[k] = s.keypad[k]) ∧
  (∀ (s t : State), step s = .next t → ∀ k : Key, t.keypad[k] = (s.nextInput.keys.getD s.keypad)[k])

/-- R20, R29, R39: no instruction reads the sound timer, `redraw` or the events: whatever they hold, all the rest of the
result is the same. -/
def Obligations.SoundRedrawAndEventsAreNotRead : Prop :=
  ∀ (i : Instr) (s : State) (st : Byte) (redraw : Bool) (events : List Event),
    ∃ t u : State, exec i s = .next t ∧ exec i { s with ST := st, redraw := redraw, events := events } = .next u ∧
      KeepsAllBut [.ST, .redraw, .events] t u

/-- R27, R28, R37: from every state, a step moves `sp` by at most one, and the only slot whose value it changes is the free
one at `sp`, by a push of the advanced `pc`: every live slot keeps its value, and so does a popped one. -/
def Obligations.StepKeepsLiveStackSlots : Prop :=
  ∀ s t : State, step s = .next t →
    t.sp.val ≤ s.sp.val + 1 ∧ s.sp.val ≤ t.sp.val + 1 ∧
    (∀ j : Fin 16, j.val < s.sp.val → t.stack[j] = s.stack[j]) ∧
    ∀ j : Fin 16, t.stack[j] ≠ s.stack[j] → j.val = s.sp.val ∧ t.sp.val = s.sp.val + 1 ∧ t.stack[j] = s.pc + 2

/-- The invariant at reset (R38, R260): memory is in the canonical form of the model (log entry 29), and there is no fault
record (the spec's decision D6, log entry 25). -/
def Obligations.ResetMeetsTheInvariant : Prop := State.reset.Inv

/-- R223, R224, R225 and the model's memory form: from every state that meets it, a step keeps the invariant: memory stays
canonical, and a fault record stays true of the state. -/
def Obligations.StepKeepsTheInvariant : Prop := ∀ s t : State, s.Inv → step s = .next t → t.Inv

/-- R240: the host's operations keep the invariant: `load`, `init`, `tick`, key levels, clearing `redraw`. So does
`withFetchWord`, which is no operation of R240 but the model's own (log entry 22). The form of memory kept is log entry 29. -/
def Obligations.HostOperationsKeepTheInvariant : Prop :=
  ∀ s : State, s.Inv →
    (∀ bytes : List Byte, (s.load bytes).1.Inv) ∧ s.init.Inv ∧ s.tickOp.Inv ∧ (∀ keys : Keypad, (s.writeKeypad keys).Inv) ∧
    s.clearRedraw.Inv ∧ ∀ nbits w : Nat, (s.withFetchWord nbits w).Inv
end

