-- ==== Sys2Proof/Laws/State.lean ====
section
/-!
SUPPORT. The Machine's record lemmas: for every update, what each field is after it. All true by rfl.
-/

namespace Sys2Proof.Machine

/-! ## memWrite -/

@[simp] theorem State.memWrite_memory (s : State) (a : Nat) (v : Byte) : (s.memWrite a v).memory = s.memory.write (a % Config.memSize) v := rfl
@[simp] theorem State.memWrite_V (s : State) (a : Nat) (v : Byte) : (s.memWrite a v).V = s.V := rfl
@[simp] theorem State.memWrite_I (s : State) (a : Nat) (v : Byte) : (s.memWrite a v).I = s.I := rfl
@[simp] theorem State.memWrite_pc (s : State) (a : Nat) (v : Byte) : (s.memWrite a v).pc = s.pc := rfl
@[simp] theorem State.memWrite_stack (s : State) (a : Nat) (v : Byte) : (s.memWrite a v).stack = s.stack := rfl
@[simp] theorem State.memWrite_sp (s : State) (a : Nat) (v : Byte) : (s.memWrite a v).sp = s.sp := rfl
@[simp] theorem State.memWrite_DT (s : State) (a : Nat) (v : Byte) : (s.memWrite a v).DT = s.DT := rfl
@[simp] theorem State.memWrite_ST (s : State) (a : Nat) (v : Byte) : (s.memWrite a v).ST = s.ST := rfl
@[simp] theorem State.memWrite_display (s : State) (a : Nat) (v : Byte) : (s.memWrite a v).display = s.display := rfl
@[simp] theorem State.memWrite_keypad (s : State) (a : Nat) (v : Byte) : (s.memWrite a v).keypad = s.keypad := rfl
@[simp] theorem State.memWrite_redraw (s : State) (a : Nat) (v : Byte) : (s.memWrite a v).redraw = s.redraw := rfl
@[simp] theorem State.memWrite_fault (s : State) (a : Nat) (v : Byte) : (s.memWrite a v).fault = s.fault := rfl
@[simp] theorem State.memWrite_rng (s : State) (a : Nat) (v : Byte) : (s.memWrite a v).rng = s.rng := rfl
@[simp] theorem State.memWrite_events (s : State) (a : Nat) (v : Byte) : (s.memWrite a v).events = s.events := rfl
@[simp] theorem State.memWrite_inputs (s : State) (a : Nat) (v : Byte) : (s.memWrite a v).inputs = s.inputs := rfl

/-! ## setReg -/

@[simp] theorem State.setReg_memory (s : State) (r : Reg) (v : Byte) : (s.setReg r v).memory = s.memory := rfl
@[simp] theorem State.setReg_V (s : State) (r : Reg) (v : Byte) : (s.setReg r v).V = s.V.set r v := rfl
@[simp] theorem State.setReg_I (s : State) (r : Reg) (v : Byte) : (s.setReg r v).I = s.I := rfl
@[simp] theorem State.setReg_pc (s : State) (r : Reg) (v : Byte) : (s.setReg r v).pc = s.pc := rfl
@[simp] theorem State.setReg_stack (s : State) (r : Reg) (v : Byte) : (s.setReg r v).stack = s.stack := rfl
@[simp] theorem State.setReg_sp (s : State) (r : Reg) (v : Byte) : (s.setReg r v).sp = s.sp := rfl
@[simp] theorem State.setReg_DT (s : State) (r : Reg) (v : Byte) : (s.setReg r v).DT = s.DT := rfl
@[simp] theorem State.setReg_ST (s : State) (r : Reg) (v : Byte) : (s.setReg r v).ST = s.ST := rfl
@[simp] theorem State.setReg_display (s : State) (r : Reg) (v : Byte) : (s.setReg r v).display = s.display := rfl
@[simp] theorem State.setReg_keypad (s : State) (r : Reg) (v : Byte) : (s.setReg r v).keypad = s.keypad := rfl
@[simp] theorem State.setReg_redraw (s : State) (r : Reg) (v : Byte) : (s.setReg r v).redraw = s.redraw := rfl
@[simp] theorem State.setReg_fault (s : State) (r : Reg) (v : Byte) : (s.setReg r v).fault = s.fault := rfl
@[simp] theorem State.setReg_rng (s : State) (r : Reg) (v : Byte) : (s.setReg r v).rng = s.rng := rfl
@[simp] theorem State.setReg_events (s : State) (r : Reg) (v : Byte) : (s.setReg r v).events = s.events := rfl
@[simp] theorem State.setReg_inputs (s : State) (r : Reg) (v : Byte) : (s.setReg r v).inputs = s.inputs := rfl

/-! ## setI -/

@[simp] theorem State.setI_memory (s : State) (v : Word) : (s.setI v).memory = s.memory := rfl
@[simp] theorem State.setI_V (s : State) (v : Word) : (s.setI v).V = s.V := rfl
@[simp] theorem State.setI_I (s : State) (v : Word) : (s.setI v).I = v := rfl
@[simp] theorem State.setI_pc (s : State) (v : Word) : (s.setI v).pc = s.pc := rfl
@[simp] theorem State.setI_stack (s : State) (v : Word) : (s.setI v).stack = s.stack := rfl
@[simp] theorem State.setI_sp (s : State) (v : Word) : (s.setI v).sp = s.sp := rfl
@[simp] theorem State.setI_DT (s : State) (v : Word) : (s.setI v).DT = s.DT := rfl
@[simp] theorem State.setI_ST (s : State) (v : Word) : (s.setI v).ST = s.ST := rfl
@[simp] theorem State.setI_display (s : State) (v : Word) : (s.setI v).display = s.display := rfl
@[simp] theorem State.setI_keypad (s : State) (v : Word) : (s.setI v).keypad = s.keypad := rfl
@[simp] theorem State.setI_redraw (s : State) (v : Word) : (s.setI v).redraw = s.redraw := rfl
@[simp] theorem State.setI_fault (s : State) (v : Word) : (s.setI v).fault = s.fault := rfl
@[simp] theorem State.setI_rng (s : State) (v : Word) : (s.setI v).rng = s.rng := rfl
@[simp] theorem State.setI_events (s : State) (v : Word) : (s.setI v).events = s.events := rfl
@[simp] theorem State.setI_inputs (s : State) (v : Word) : (s.setI v).inputs = s.inputs := rfl

/-! ## setPc -/

@[simp] theorem State.setPc_memory (s : State) (v : Word) : (s.setPc v).memory = s.memory := rfl
@[simp] theorem State.setPc_V (s : State) (v : Word) : (s.setPc v).V = s.V := rfl
@[simp] theorem State.setPc_I (s : State) (v : Word) : (s.setPc v).I = s.I := rfl
@[simp] theorem State.setPc_pc (s : State) (v : Word) : (s.setPc v).pc = v := rfl
@[simp] theorem State.setPc_stack (s : State) (v : Word) : (s.setPc v).stack = s.stack := rfl
@[simp] theorem State.setPc_sp (s : State) (v : Word) : (s.setPc v).sp = s.sp := rfl
@[simp] theorem State.setPc_DT (s : State) (v : Word) : (s.setPc v).DT = s.DT := rfl
@[simp] theorem State.setPc_ST (s : State) (v : Word) : (s.setPc v).ST = s.ST := rfl
@[simp] theorem State.setPc_display (s : State) (v : Word) : (s.setPc v).display = s.display := rfl
@[simp] theorem State.setPc_keypad (s : State) (v : Word) : (s.setPc v).keypad = s.keypad := rfl
@[simp] theorem State.setPc_redraw (s : State) (v : Word) : (s.setPc v).redraw = s.redraw := rfl
@[simp] theorem State.setPc_fault (s : State) (v : Word) : (s.setPc v).fault = s.fault := rfl
@[simp] theorem State.setPc_rng (s : State) (v : Word) : (s.setPc v).rng = s.rng := rfl
@[simp] theorem State.setPc_events (s : State) (v : Word) : (s.setPc v).events = s.events := rfl
@[simp] theorem State.setPc_inputs (s : State) (v : Word) : (s.setPc v).inputs = s.inputs := rfl

/-! ## advance -/

@[simp] theorem State.advance_memory (s : State) : (s.advance).memory = s.memory := rfl
@[simp] theorem State.advance_V (s : State) : (s.advance).V = s.V := rfl
@[simp] theorem State.advance_I (s : State) : (s.advance).I = s.I := rfl
@[simp] theorem State.advance_pc (s : State) : (s.advance).pc = s.pc + 2 := rfl
@[simp] theorem State.advance_stack (s : State) : (s.advance).stack = s.stack := rfl
@[simp] theorem State.advance_sp (s : State) : (s.advance).sp = s.sp := rfl
@[simp] theorem State.advance_DT (s : State) : (s.advance).DT = s.DT := rfl
@[simp] theorem State.advance_ST (s : State) : (s.advance).ST = s.ST := rfl
@[simp] theorem State.advance_display (s : State) : (s.advance).display = s.display := rfl
@[simp] theorem State.advance_keypad (s : State) : (s.advance).keypad = s.keypad := rfl
@[simp] theorem State.advance_redraw (s : State) : (s.advance).redraw = s.redraw := rfl
@[simp] theorem State.advance_fault (s : State) : (s.advance).fault = s.fault := rfl
@[simp] theorem State.advance_rng (s : State) : (s.advance).rng = s.rng := rfl
@[simp] theorem State.advance_events (s : State) : (s.advance).events = s.events := rfl
@[simp] theorem State.advance_inputs (s : State) : (s.advance).inputs = s.inputs := rfl

/-! ## retreat -/

@[simp] theorem State.retreat_memory (s : State) : (s.retreat).memory = s.memory := rfl
@[simp] theorem State.retreat_V (s : State) : (s.retreat).V = s.V := rfl
@[simp] theorem State.retreat_I (s : State) : (s.retreat).I = s.I := rfl
@[simp] theorem State.retreat_pc (s : State) : (s.retreat).pc = s.pc - 2 := rfl
@[simp] theorem State.retreat_stack (s : State) : (s.retreat).stack = s.stack := rfl
@[simp] theorem State.retreat_sp (s : State) : (s.retreat).sp = s.sp := rfl
@[simp] theorem State.retreat_DT (s : State) : (s.retreat).DT = s.DT := rfl
@[simp] theorem State.retreat_ST (s : State) : (s.retreat).ST = s.ST := rfl
@[simp] theorem State.retreat_display (s : State) : (s.retreat).display = s.display := rfl
@[simp] theorem State.retreat_keypad (s : State) : (s.retreat).keypad = s.keypad := rfl
@[simp] theorem State.retreat_redraw (s : State) : (s.retreat).redraw = s.redraw := rfl
@[simp] theorem State.retreat_fault (s : State) : (s.retreat).fault = s.fault := rfl
@[simp] theorem State.retreat_rng (s : State) : (s.retreat).rng = s.rng := rfl
@[simp] theorem State.retreat_events (s : State) : (s.retreat).events = s.events := rfl
@[simp] theorem State.retreat_inputs (s : State) : (s.retreat).inputs = s.inputs := rfl

/-! ## push -/

@[simp] theorem State.push_memory (s : State) (v : Word) (room : s.sp.val < 16) : (s.push v room).memory = s.memory := rfl
@[simp] theorem State.push_V (s : State) (v : Word) (room : s.sp.val < 16) : (s.push v room).V = s.V := rfl
@[simp] theorem State.push_I (s : State) (v : Word) (room : s.sp.val < 16) : (s.push v room).I = s.I := rfl
@[simp] theorem State.push_pc (s : State) (v : Word) (room : s.sp.val < 16) : (s.push v room).pc = s.pc := rfl
@[simp] theorem State.push_stack (s : State) (v : Word) (room : s.sp.val < 16) : (s.push v room).stack = s.stack.set s.sp.val v := rfl
@[simp] theorem State.push_sp (s : State) (v : Word) (room : s.sp.val < 16) : (s.push v room).sp = ⟨s.sp.val + 1, by omega⟩ := rfl
@[simp] theorem State.push_DT (s : State) (v : Word) (room : s.sp.val < 16) : (s.push v room).DT = s.DT := rfl
@[simp] theorem State.push_ST (s : State) (v : Word) (room : s.sp.val < 16) : (s.push v room).ST = s.ST := rfl
@[simp] theorem State.push_display (s : State) (v : Word) (room : s.sp.val < 16) : (s.push v room).display = s.display := rfl
@[simp] theorem State.push_keypad (s : State) (v : Word) (room : s.sp.val < 16) : (s.push v room).keypad = s.keypad := rfl
@[simp] theorem State.push_redraw (s : State) (v : Word) (room : s.sp.val < 16) : (s.push v room).redraw = s.redraw := rfl
@[simp] theorem State.push_fault (s : State) (v : Word) (room : s.sp.val < 16) : (s.push v room).fault = s.fault := rfl
@[simp] theorem State.push_rng (s : State) (v : Word) (room : s.sp.val < 16) : (s.push v room).rng = s.rng := rfl
@[simp] theorem State.push_events (s : State) (v : Word) (room : s.sp.val < 16) : (s.push v room).events = s.events := rfl
@[simp] theorem State.push_inputs (s : State) (v : Word) (room : s.sp.val < 16) : (s.push v room).inputs = s.inputs := rfl

/-! ## drop -/

@[simp] theorem State.drop_memory (s : State) : (s.drop).memory = s.memory := rfl
@[simp] theorem State.drop_V (s : State) : (s.drop).V = s.V := rfl
@[simp] theorem State.drop_I (s : State) : (s.drop).I = s.I := rfl
@[simp] theorem State.drop_pc (s : State) : (s.drop).pc = s.pc := rfl
@[simp] theorem State.drop_stack (s : State) : (s.drop).stack = s.stack := rfl
@[simp] theorem State.drop_sp (s : State) : (s.drop).sp = ⟨s.sp.val - 1, by omega⟩ := rfl
@[simp] theorem State.drop_DT (s : State) : (s.drop).DT = s.DT := rfl
@[simp] theorem State.drop_ST (s : State) : (s.drop).ST = s.ST := rfl
@[simp] theorem State.drop_display (s : State) : (s.drop).display = s.display := rfl
@[simp] theorem State.drop_keypad (s : State) : (s.drop).keypad = s.keypad := rfl
@[simp] theorem State.drop_redraw (s : State) : (s.drop).redraw = s.redraw := rfl
@[simp] theorem State.drop_fault (s : State) : (s.drop).fault = s.fault := rfl
@[simp] theorem State.drop_rng (s : State) : (s.drop).rng = s.rng := rfl
@[simp] theorem State.drop_events (s : State) : (s.drop).events = s.events := rfl
@[simp] theorem State.drop_inputs (s : State) : (s.drop).inputs = s.inputs := rfl

/-! ## setDT -/

@[simp] theorem State.setDT_memory (s : State) (v : Byte) : (s.setDT v).memory = s.memory := rfl
@[simp] theorem State.setDT_V (s : State) (v : Byte) : (s.setDT v).V = s.V := rfl
@[simp] theorem State.setDT_I (s : State) (v : Byte) : (s.setDT v).I = s.I := rfl
@[simp] theorem State.setDT_pc (s : State) (v : Byte) : (s.setDT v).pc = s.pc := rfl
@[simp] theorem State.setDT_stack (s : State) (v : Byte) : (s.setDT v).stack = s.stack := rfl
@[simp] theorem State.setDT_sp (s : State) (v : Byte) : (s.setDT v).sp = s.sp := rfl
@[simp] theorem State.setDT_DT (s : State) (v : Byte) : (s.setDT v).DT = v := rfl
@[simp] theorem State.setDT_ST (s : State) (v : Byte) : (s.setDT v).ST = s.ST := rfl
@[simp] theorem State.setDT_display (s : State) (v : Byte) : (s.setDT v).display = s.display := rfl
@[simp] theorem State.setDT_keypad (s : State) (v : Byte) : (s.setDT v).keypad = s.keypad := rfl
@[simp] theorem State.setDT_redraw (s : State) (v : Byte) : (s.setDT v).redraw = s.redraw := rfl
@[simp] theorem State.setDT_fault (s : State) (v : Byte) : (s.setDT v).fault = s.fault := rfl
@[simp] theorem State.setDT_rng (s : State) (v : Byte) : (s.setDT v).rng = s.rng := rfl
@[simp] theorem State.setDT_events (s : State) (v : Byte) : (s.setDT v).events = s.events := rfl
@[simp] theorem State.setDT_inputs (s : State) (v : Byte) : (s.setDT v).inputs = s.inputs := rfl

/-! ## setST -/

@[simp] theorem State.setST_memory (s : State) (v : Byte) : (s.setST v).memory = s.memory := rfl
@[simp] theorem State.setST_V (s : State) (v : Byte) : (s.setST v).V = s.V := rfl
@[simp] theorem State.setST_I (s : State) (v : Byte) : (s.setST v).I = s.I := rfl
@[simp] theorem State.setST_pc (s : State) (v : Byte) : (s.setST v).pc = s.pc := rfl
@[simp] theorem State.setST_stack (s : State) (v : Byte) : (s.setST v).stack = s.stack := rfl
@[simp] theorem State.setST_sp (s : State) (v : Byte) : (s.setST v).sp = s.sp := rfl
@[simp] theorem State.setST_DT (s : State) (v : Byte) : (s.setST v).DT = s.DT := rfl
@[simp] theorem State.setST_ST (s : State) (v : Byte) : (s.setST v).ST = v := rfl
@[simp] theorem State.setST_display (s : State) (v : Byte) : (s.setST v).display = s.display := rfl
@[simp] theorem State.setST_keypad (s : State) (v : Byte) : (s.setST v).keypad = s.keypad := rfl
@[simp] theorem State.setST_redraw (s : State) (v : Byte) : (s.setST v).redraw = s.redraw := rfl
@[simp] theorem State.setST_fault (s : State) (v : Byte) : (s.setST v).fault = s.fault := rfl
@[simp] theorem State.setST_rng (s : State) (v : Byte) : (s.setST v).rng = s.rng := rfl
@[simp] theorem State.setST_events (s : State) (v : Byte) : (s.setST v).events = s.events := rfl
@[simp] theorem State.setST_inputs (s : State) (v : Byte) : (s.setST v).inputs = s.inputs := rfl

/-! ## emit -/

@[simp] theorem State.emit_memory (s : State) (e : Event) : (s.emit e).memory = s.memory := rfl
@[simp] theorem State.emit_V (s : State) (e : Event) : (s.emit e).V = s.V := rfl
@[simp] theorem State.emit_I (s : State) (e : Event) : (s.emit e).I = s.I := rfl
@[simp] theorem State.emit_pc (s : State) (e : Event) : (s.emit e).pc = s.pc := rfl
@[simp] theorem State.emit_stack (s : State) (e : Event) : (s.emit e).stack = s.stack := rfl
@[simp] theorem State.emit_sp (s : State) (e : Event) : (s.emit e).sp = s.sp := rfl
@[simp] theorem State.emit_DT (s : State) (e : Event) : (s.emit e).DT = s.DT := rfl
@[simp] theorem State.emit_ST (s : State) (e : Event) : (s.emit e).ST = s.ST := rfl
@[simp] theorem State.emit_display (s : State) (e : Event) : (s.emit e).display = s.display := rfl
@[simp] theorem State.emit_keypad (s : State) (e : Event) : (s.emit e).keypad = s.keypad := rfl
@[simp] theorem State.emit_redraw (s : State) (e : Event) : (s.emit e).redraw = s.redraw := rfl
@[simp] theorem State.emit_fault (s : State) (e : Event) : (s.emit e).fault = s.fault := rfl
@[simp] theorem State.emit_rng (s : State) (e : Event) : (s.emit e).rng = s.rng := rfl
@[simp] theorem State.emit_events (s : State) (e : Event) : (s.emit e).events = s.events ++ [e] := rfl
@[simp] theorem State.emit_inputs (s : State) (e : Event) : (s.emit e).inputs = s.inputs := rfl

/-! ## redrawWith -/

@[simp] theorem State.redrawWith_memory (s : State) (d : Display) : (s.redrawWith d).memory = s.memory := rfl
@[simp] theorem State.redrawWith_V (s : State) (d : Display) : (s.redrawWith d).V = s.V := rfl
@[simp] theorem State.redrawWith_I (s : State) (d : Display) : (s.redrawWith d).I = s.I := rfl
@[simp] theorem State.redrawWith_pc (s : State) (d : Display) : (s.redrawWith d).pc = s.pc := rfl
@[simp] theorem State.redrawWith_stack (s : State) (d : Display) : (s.redrawWith d).stack = s.stack := rfl
@[simp] theorem State.redrawWith_sp (s : State) (d : Display) : (s.redrawWith d).sp = s.sp := rfl
@[simp] theorem State.redrawWith_DT (s : State) (d : Display) : (s.redrawWith d).DT = s.DT := rfl
@[simp] theorem State.redrawWith_ST (s : State) (d : Display) : (s.redrawWith d).ST = s.ST := rfl
@[simp] theorem State.redrawWith_display (s : State) (d : Display) : (s.redrawWith d).display = d := rfl
@[simp] theorem State.redrawWith_keypad (s : State) (d : Display) : (s.redrawWith d).keypad = s.keypad := rfl
@[simp] theorem State.redrawWith_redraw (s : State) (d : Display) : (s.redrawWith d).redraw = true := rfl
@[simp] theorem State.redrawWith_fault (s : State) (d : Display) : (s.redrawWith d).fault = s.fault := rfl
@[simp] theorem State.redrawWith_rng (s : State) (d : Display) : (s.redrawWith d).rng = s.rng := rfl
@[simp] theorem State.redrawWith_events (s : State) (d : Display) : (s.redrawWith d).events = s.events := rfl
@[simp] theorem State.redrawWith_inputs (s : State) (d : Display) : (s.redrawWith d).inputs = s.inputs := rfl

/-! ## setRng -/

@[simp] theorem State.setRng_memory (s : State) (r : Rng) : (s.setRng r).memory = s.memory := rfl
@[simp] theorem State.setRng_V (s : State) (r : Rng) : (s.setRng r).V = s.V := rfl
@[simp] theorem State.setRng_I (s : State) (r : Rng) : (s.setRng r).I = s.I := rfl
@[simp] theorem State.setRng_pc (s : State) (r : Rng) : (s.setRng r).pc = s.pc := rfl
@[simp] theorem State.setRng_stack (s : State) (r : Rng) : (s.setRng r).stack = s.stack := rfl
@[simp] theorem State.setRng_sp (s : State) (r : Rng) : (s.setRng r).sp = s.sp := rfl
@[simp] theorem State.setRng_DT (s : State) (r : Rng) : (s.setRng r).DT = s.DT := rfl
@[simp] theorem State.setRng_ST (s : State) (r : Rng) : (s.setRng r).ST = s.ST := rfl
@[simp] theorem State.setRng_display (s : State) (r : Rng) : (s.setRng r).display = s.display := rfl
@[simp] theorem State.setRng_keypad (s : State) (r : Rng) : (s.setRng r).keypad = s.keypad := rfl
@[simp] theorem State.setRng_redraw (s : State) (r : Rng) : (s.setRng r).redraw = s.redraw := rfl
@[simp] theorem State.setRng_fault (s : State) (r : Rng) : (s.setRng r).fault = s.fault := rfl
@[simp] theorem State.setRng_rng (s : State) (r : Rng) : (s.setRng r).rng = r := rfl
@[simp] theorem State.setRng_events (s : State) (r : Rng) : (s.setRng r).events = s.events := rfl
@[simp] theorem State.setRng_inputs (s : State) (r : Rng) : (s.setRng r).inputs = s.inputs := rfl

/-! ## setFlag -/

@[simp] theorem State.setFlag_memory (s : State) (b : Bool) : (s.setFlag b).memory = s.memory := rfl
@[simp] theorem State.setFlag_V (s : State) (b : Bool) : (s.setFlag b).V = s.V.set VF (flagByte b) := rfl
@[simp] theorem State.setFlag_I (s : State) (b : Bool) : (s.setFlag b).I = s.I := rfl
@[simp] theorem State.setFlag_pc (s : State) (b : Bool) : (s.setFlag b).pc = s.pc := rfl
@[simp] theorem State.setFlag_stack (s : State) (b : Bool) : (s.setFlag b).stack = s.stack := rfl
@[simp] theorem State.setFlag_sp (s : State) (b : Bool) : (s.setFlag b).sp = s.sp := rfl
@[simp] theorem State.setFlag_DT (s : State) (b : Bool) : (s.setFlag b).DT = s.DT := rfl
@[simp] theorem State.setFlag_ST (s : State) (b : Bool) : (s.setFlag b).ST = s.ST := rfl
@[simp] theorem State.setFlag_display (s : State) (b : Bool) : (s.setFlag b).display = s.display := rfl
@[simp] theorem State.setFlag_keypad (s : State) (b : Bool) : (s.setFlag b).keypad = s.keypad := rfl
@[simp] theorem State.setFlag_redraw (s : State) (b : Bool) : (s.setFlag b).redraw = s.redraw := rfl
@[simp] theorem State.setFlag_fault (s : State) (b : Bool) : (s.setFlag b).fault = s.fault := rfl
@[simp] theorem State.setFlag_rng (s : State) (b : Bool) : (s.setFlag b).rng = s.rng := rfl
@[simp] theorem State.setFlag_events (s : State) (b : Bool) : (s.setFlag b).events = s.events := rfl
@[simp] theorem State.setFlag_inputs (s : State) (b : Bool) : (s.setFlag b).inputs = s.inputs := rfl

/-! ## setFlagThenReg -/

@[simp] theorem State.setFlagThenReg_memory (s : State) (b : Bool) (x : Reg) (v : Byte) : (s.setFlagThenReg b x v).memory = s.memory := rfl
@[simp] theorem State.setFlagThenReg_V (s : State) (b : Bool) (x : Reg) (v : Byte) : (s.setFlagThenReg b x v).V = (s.V.set VF (flagByte b)).set x v := rfl
@[simp] theorem State.setFlagThenReg_I (s : State) (b : Bool) (x : Reg) (v : Byte) : (s.setFlagThenReg b x v).I = s.I := rfl
@[simp] theorem State.setFlagThenReg_pc (s : State) (b : Bool) (x : Reg) (v : Byte) : (s.setFlagThenReg b x v).pc = s.pc := rfl
@[simp] theorem State.setFlagThenReg_stack (s : State) (b : Bool) (x : Reg) (v : Byte) : (s.setFlagThenReg b x v).stack = s.stack := rfl
@[simp] theorem State.setFlagThenReg_sp (s : State) (b : Bool) (x : Reg) (v : Byte) : (s.setFlagThenReg b x v).sp = s.sp := rfl
@[simp] theorem State.setFlagThenReg_DT (s : State) (b : Bool) (x : Reg) (v : Byte) : (s.setFlagThenReg b x v).DT = s.DT := rfl
@[simp] theorem State.setFlagThenReg_ST (s : State) (b : Bool) (x : Reg) (v : Byte) : (s.setFlagThenReg b x v).ST = s.ST := rfl
@[simp] theorem State.setFlagThenReg_display (s : State) (b : Bool) (x : Reg) (v : Byte) : (s.setFlagThenReg b x v).display = s.display := rfl
@[simp] theorem State.setFlagThenReg_keypad (s : State) (b : Bool) (x : Reg) (v : Byte) : (s.setFlagThenReg b x v).keypad = s.keypad := rfl
@[simp] theorem State.setFlagThenReg_redraw (s : State) (b : Bool) (x : Reg) (v : Byte) : (s.setFlagThenReg b x v).redraw = s.redraw := rfl
@[simp] theorem State.setFlagThenReg_fault (s : State) (b : Bool) (x : Reg) (v : Byte) : (s.setFlagThenReg b x v).fault = s.fault := rfl
@[simp] theorem State.setFlagThenReg_rng (s : State) (b : Bool) (x : Reg) (v : Byte) : (s.setFlagThenReg b x v).rng = s.rng := rfl
@[simp] theorem State.setFlagThenReg_events (s : State) (b : Bool) (x : Reg) (v : Byte) : (s.setFlagThenReg b x v).events = s.events := rfl
@[simp] theorem State.setFlagThenReg_inputs (s : State) (b : Bool) (x : Reg) (v : Byte) : (s.setFlagThenReg b x v).inputs = s.inputs := rfl

/-! ## raiseFault -/

@[simp] theorem State.raiseFault_memory (s : State) (k : FaultKind) (w : Word) (info : Option Nat) : (s.raiseFault k w info).memory = s.memory := rfl
@[simp] theorem State.raiseFault_V (s : State) (k : FaultKind) (w : Word) (info : Option Nat) : (s.raiseFault k w info).V = s.V := rfl
@[simp] theorem State.raiseFault_I (s : State) (k : FaultKind) (w : Word) (info : Option Nat) : (s.raiseFault k w info).I = s.I := rfl
@[simp] theorem State.raiseFault_pc (s : State) (k : FaultKind) (w : Word) (info : Option Nat) : (s.raiseFault k w info).pc = s.pc - 2 := rfl
@[simp] theorem State.raiseFault_stack (s : State) (k : FaultKind) (w : Word) (info : Option Nat) : (s.raiseFault k w info).stack = s.stack := rfl
@[simp] theorem State.raiseFault_sp (s : State) (k : FaultKind) (w : Word) (info : Option Nat) : (s.raiseFault k w info).sp = s.sp := rfl
@[simp] theorem State.raiseFault_DT (s : State) (k : FaultKind) (w : Word) (info : Option Nat) : (s.raiseFault k w info).DT = s.DT := rfl
@[simp] theorem State.raiseFault_ST (s : State) (k : FaultKind) (w : Word) (info : Option Nat) : (s.raiseFault k w info).ST = s.ST := rfl
@[simp] theorem State.raiseFault_display (s : State) (k : FaultKind) (w : Word) (info : Option Nat) : (s.raiseFault k w info).display = s.display := rfl
@[simp] theorem State.raiseFault_keypad (s : State) (k : FaultKind) (w : Word) (info : Option Nat) : (s.raiseFault k w info).keypad = s.keypad := rfl
@[simp] theorem State.raiseFault_redraw (s : State) (k : FaultKind) (w : Word) (info : Option Nat) : (s.raiseFault k w info).redraw = s.redraw := rfl
@[simp] theorem State.raiseFault_fault (s : State) (k : FaultKind) (w : Word) (info : Option Nat) : (s.raiseFault k w info).fault = some ⟨k, s.pc - 2, w, info⟩ := rfl
@[simp] theorem State.raiseFault_rng (s : State) (k : FaultKind) (w : Word) (info : Option Nat) : (s.raiseFault k w info).rng = s.rng := rfl
@[simp] theorem State.raiseFault_events (s : State) (k : FaultKind) (w : Word) (info : Option Nat) : (s.raiseFault k w info).events = s.events ++ [.fault k (s.pc - 2)] := rfl
@[simp] theorem State.raiseFault_inputs (s : State) (k : FaultKind) (w : Word) (info : Option Nat) : (s.raiseFault k w info).inputs = s.inputs := rfl

/-! ## begin -/

@[simp] theorem State.begin_memory (s : State) : (s.begin).memory = s.memory := rfl
@[simp] theorem State.begin_V (s : State) : (s.begin).V = s.V := rfl
@[simp] theorem State.begin_I (s : State) : (s.begin).I = s.I := rfl
@[simp] theorem State.begin_pc (s : State) : (s.begin).pc = s.pc := rfl
@[simp] theorem State.begin_stack (s : State) : (s.begin).stack = s.stack := rfl
@[simp] theorem State.begin_sp (s : State) : (s.begin).sp = s.sp := rfl
@[simp] theorem State.begin_DT (s : State) : (s.begin).DT = s.DT := rfl
@[simp] theorem State.begin_ST (s : State) : (s.begin).ST = s.ST := rfl
@[simp] theorem State.begin_display (s : State) : (s.begin).display = s.display := rfl
@[simp] theorem State.begin_keypad (s : State) : (s.begin).keypad = s.keypad := rfl
@[simp] theorem State.begin_redraw (s : State) : (s.begin).redraw = s.redraw := rfl
@[simp] theorem State.begin_fault (s : State) : (s.begin).fault = s.fault := rfl
@[simp] theorem State.begin_rng (s : State) : (s.begin).rng = s.rng := rfl
@[simp] theorem State.begin_events (s : State) : (s.begin).events = [] := rfl
@[simp] theorem State.begin_inputs (s : State) : (s.begin).inputs = s.inputs := rfl

/-! ## writeKeypad -/

@[simp] theorem State.writeKeypad_memory (s : State) (keys : Keypad) : (s.writeKeypad keys).memory = s.memory := rfl
@[simp] theorem State.writeKeypad_V (s : State) (keys : Keypad) : (s.writeKeypad keys).V = s.V := rfl
@[simp] theorem State.writeKeypad_I (s : State) (keys : Keypad) : (s.writeKeypad keys).I = s.I := rfl
@[simp] theorem State.writeKeypad_pc (s : State) (keys : Keypad) : (s.writeKeypad keys).pc = s.pc := rfl
@[simp] theorem State.writeKeypad_stack (s : State) (keys : Keypad) : (s.writeKeypad keys).stack = s.stack := rfl
@[simp] theorem State.writeKeypad_sp (s : State) (keys : Keypad) : (s.writeKeypad keys).sp = s.sp := rfl
@[simp] theorem State.writeKeypad_DT (s : State) (keys : Keypad) : (s.writeKeypad keys).DT = s.DT := rfl
@[simp] theorem State.writeKeypad_ST (s : State) (keys : Keypad) : (s.writeKeypad keys).ST = s.ST := rfl
@[simp] theorem State.writeKeypad_display (s : State) (keys : Keypad) : (s.writeKeypad keys).display = s.display := rfl
@[simp] theorem State.writeKeypad_keypad (s : State) (keys : Keypad) : (s.writeKeypad keys).keypad = keys := rfl
@[simp] theorem State.writeKeypad_redraw (s : State) (keys : Keypad) : (s.writeKeypad keys).redraw = s.redraw := rfl
@[simp] theorem State.writeKeypad_fault (s : State) (keys : Keypad) : (s.writeKeypad keys).fault = s.fault := rfl
@[simp] theorem State.writeKeypad_rng (s : State) (keys : Keypad) : (s.writeKeypad keys).rng = s.rng := rfl
@[simp] theorem State.writeKeypad_events (s : State) (keys : Keypad) : (s.writeKeypad keys).events = s.events := rfl
@[simp] theorem State.writeKeypad_inputs (s : State) (keys : Keypad) : (s.writeKeypad keys).inputs = s.inputs := rfl

/-! ## clearRedraw -/

@[simp] theorem State.clearRedraw_memory (s : State) : (s.clearRedraw).memory = s.memory := rfl
@[simp] theorem State.clearRedraw_V (s : State) : (s.clearRedraw).V = s.V := rfl
@[simp] theorem State.clearRedraw_I (s : State) : (s.clearRedraw).I = s.I := rfl
@[simp] theorem State.clearRedraw_pc (s : State) : (s.clearRedraw).pc = s.pc := rfl
@[simp] theorem State.clearRedraw_stack (s : State) : (s.clearRedraw).stack = s.stack := rfl
@[simp] theorem State.clearRedraw_sp (s : State) : (s.clearRedraw).sp = s.sp := rfl
@[simp] theorem State.clearRedraw_DT (s : State) : (s.clearRedraw).DT = s.DT := rfl
@[simp] theorem State.clearRedraw_ST (s : State) : (s.clearRedraw).ST = s.ST := rfl
@[simp] theorem State.clearRedraw_display (s : State) : (s.clearRedraw).display = s.display := rfl
@[simp] theorem State.clearRedraw_keypad (s : State) : (s.clearRedraw).keypad = s.keypad := rfl
@[simp] theorem State.clearRedraw_redraw (s : State) : (s.clearRedraw).redraw = false := rfl
@[simp] theorem State.clearRedraw_fault (s : State) : (s.clearRedraw).fault = s.fault := rfl
@[simp] theorem State.clearRedraw_rng (s : State) : (s.clearRedraw).rng = s.rng := rfl
@[simp] theorem State.clearRedraw_events (s : State) : (s.clearRedraw).events = s.events := rfl
@[simp] theorem State.clearRedraw_inputs (s : State) : (s.clearRedraw).inputs = s.inputs := rfl

/-! ## hostActs -/

@[simp] theorem State.hostActs_memory (s : State) : (s.hostActs).memory = s.memory := rfl
@[simp] theorem State.hostActs_V (s : State) : (s.hostActs).V = s.V := rfl
@[simp] theorem State.hostActs_I (s : State) : (s.hostActs).I = s.I := rfl
@[simp] theorem State.hostActs_pc (s : State) : (s.hostActs).pc = s.pc := rfl
@[simp] theorem State.hostActs_stack (s : State) : (s.hostActs).stack = s.stack := rfl
@[simp] theorem State.hostActs_sp (s : State) : (s.hostActs).sp = s.sp := rfl
@[simp] theorem State.hostActs_DT (s : State) : (s.hostActs).DT = s.DT := rfl
@[simp] theorem State.hostActs_ST (s : State) : (s.hostActs).ST = s.ST := rfl
@[simp] theorem State.hostActs_display (s : State) : (s.hostActs).display = s.display := rfl
@[simp] theorem State.hostActs_keypad (s : State) : (s.hostActs).keypad = s.nextInput.keys.getD s.keypad := rfl
@[simp] theorem State.hostActs_redraw (s : State) : (s.hostActs).redraw = (s.redraw && !s.nextInput.clearRedraw) := rfl
@[simp] theorem State.hostActs_fault (s : State) : (s.hostActs).fault = s.fault := rfl
@[simp] theorem State.hostActs_rng (s : State) : (s.hostActs).rng = s.rng := rfl
@[simp] theorem State.hostActs_events (s : State) : (s.hostActs).events = s.events := rfl
@[simp] theorem State.hostActs_inputs (s : State) : (s.hostActs).inputs = s.inputs.tail := rfl

end Sys2Proof.Machine
end

