-- ==== Sys2Proof/Laws/Memory.lean ====
section
/-!
SUPPORT. Memory: a read after a write, the canonical form, and the block accesses (spec/20_memory.md, R171).
-/

namespace Sys2Proof.Machine

/-! ## The list of cells -/

@[simp] theorem Memory.read_nil (a : Nat) : Memory.read [] a = Memory.unlisted a := rfl

theorem Memory.read_erase_same (m : Memory) (a : Nat) : (m.erase a).read a = Memory.unlisted a := by
  induction m with
  | nil => rfl
  | cons c rest ih =>
    by_cases h : c.1 = a
    · simpa [Memory.erase, h] using ih
    · have h' : ¬ a = c.1 := fun e => h e.symm
      simpa [Memory.erase, h, h', Memory.read] using ih

theorem Memory.read_erase_other (m : Memory) (a c : Nat) (h : c ≠ a) : (m.erase a).read c = m.read c := by
  induction m with
  | nil => rfl
  | cons d rest ih =>
    by_cases hd : d.1 = a
    · have : ¬ c = d.1 := fun e => h (e.trans hd)
      simpa [Memory.erase, hd, Memory.read, h] using ih
    · by_cases hc : c = d.1
      · simp [Memory.erase, hd, Memory.read, hc]
      · simpa [Memory.erase, hd, Memory.read, hc] using ih

theorem Memory.read_insert_other (m : Memory) (a c : Nat) (v : Byte) (h : c ≠ a) : (m.insert a v).read c = m.read c := by
  induction m with
  | nil => simp [Memory.insert, Memory.read, h]
  | cons d rest ih =>
    obtain ⟨k, b⟩ := d
    by_cases hk : a < k
    · simp [Memory.insert, hk, Memory.read, h]
    · by_cases hc : c = k <;> simp [Memory.insert, hk, Memory.read, hc, ih]

theorem Memory.read_insert_same (m : Memory) (a : Nat) (v : Byte) (h : ∀ c ∈ m, c.1 ≠ a) : (m.insert a v).read a = v := by
  induction m with
  | nil => simp [Memory.insert, Memory.read]
  | cons d rest ih =>
    obtain ⟨k, b⟩ := d
    have hk : ¬ a = k := fun e => h (k, b) (by simp) e.symm
    have ih' := ih (fun c hc => h c (by simp [hc]))
    by_cases hlt : a < k <;> simp [Memory.insert, hlt, Memory.read, hk, ih']

theorem Memory.not_mem_erase (m : Memory) (a : Nat) : ∀ c ∈ m.erase a, c.1 ≠ a := by
  intro c hc
  simpa using (List.mem_filter.mp hc).2

theorem Memory.mem_insert (m : Memory) (a : Nat) (v : Byte) (c : Host.Cell) :
    c ∈ m.insert a v ↔ c = (a, v) ∨ c ∈ m := by
  induction m with
  | nil => simp [Memory.insert]
  | cons d rest ih =>
    obtain ⟨k, b⟩ := d
    by_cases hk : a < k
    · simp [Memory.insert, hk]
    · simp only [Memory.insert, hk, if_false, List.mem_cons, ih]
      tauto

/-- What a write does, said once: the written address reads as the value, every other one as before. -/
theorem Memory.read_write (m : Memory) (a c : Nat) (v : Byte) :
    (m.write a v).read c = if c = a then v else m.read c := by
  unfold Memory.write
  by_cases hv : v = Memory.unlisted a <;> by_cases hc : c = a
  · simp [hv, hc, Memory.read_erase_same]
  · simp [hv, hc, Memory.read_erase_other]
  · subst hc
    simp [hv, Memory.read_insert_same _ _ _ (Memory.not_mem_erase m c)]
  · simp [hv, hc, Memory.read_insert_other, Memory.read_erase_other]

theorem Memory.pairwise_insert (m : Memory) (a : Nat) (v : Byte) (hm : m.Pairwise (fun c d => c.1 < d.1))
    (h : ∀ c ∈ m, c.1 ≠ a) : (m.insert a v).Pairwise (fun c d => c.1 < d.1) := by
  induction m with
  | nil => simp [Memory.insert]
  | cons d rest ih =>
    obtain ⟨k, b⟩ := d
    obtain ⟨hk, hrest⟩ := List.pairwise_cons.mp hm
    by_cases hlt : a < k
    · simp only [Memory.insert, hlt, if_true, List.pairwise_cons, List.mem_cons]
      refine ⟨?_, hk, hrest⟩
      rintro c (rfl | hc)
      · exact hlt
      · exact lt_trans hlt (hk c hc)
    · simp only [Memory.insert, hlt, if_false, List.pairwise_cons]
      refine ⟨?_, ih hrest (fun c hc => h c (by simp [hc]))⟩
      intro c hc
      rcases (Memory.mem_insert rest a v c).mp hc with rfl | hc
      · have : k ≠ a := h (k, b) (by simp)
        simp only; omega
      · exact hk c hc

/-- The empty memory, that of reset, is canonical. -/
theorem Memory.wf_nil : Memory.wf [] := by simp [Memory.wf]

theorem Memory.wf_erase (m : Memory) (a : Nat) (hm : m.wf) : (m.erase a).wf :=
  ⟨hm.1.filter _, fun c hc => hm.2 c (List.mem_of_mem_filter hc)⟩

/-- A write inside memory keeps the canonical form. -/
theorem Memory.wf_write (m : Memory) (a : Nat) (v : Byte) (hm : m.wf) (ha : a < Config.memSize) : (m.write a v).wf := by
  unfold Memory.write
  split
  · exact Memory.wf_erase m a hm
  · rename_i hv
    have he := Memory.wf_erase m a hm
    refine ⟨Memory.pairwise_insert _ _ _ he.1 (Memory.not_mem_erase m a), fun c hc => ?_⟩
    rcases (Memory.mem_insert _ _ _ _).mp hc with rfl | hc
    · exact ⟨ha, hv⟩
    · exact he.2 c hc

/-! ## The Machine's accesses -/

/-- A read after a write (R171): the addresses are compared after reduction (R52). -/
theorem State.memRead_memWrite (s : State) (a c : Nat) (v : Byte) :
    (s.memWrite a v).memRead c = if c % 4096 = a % 4096 then v else s.memRead c := by
  simp [State.memRead, Memory.read_write]

theorem State.wf_memWrite (s : State) (a : Nat) (v : Byte) (h : s.memory.wf) : (s.memWrite a v).memory.wf :=
  Memory.wf_write _ _ _ h (Nat.mod_lt _ (by decide))

/-- Two states with one memory read the same bytes. -/
theorem State.memRead_congr {s t : State} (h : t.memory = s.memory) (a : Nat) : t.memRead a = s.memRead a := by
  simp [State.memRead, h]

@[simp] theorem State.readBlock_length (s : State) (a n : Nat) : (s.readBlock a n).length = n := by
  simp [State.readBlock]

theorem State.readBlock_getElem (s : State) (a n i : Nat) (h : i < (s.readBlock a n).length) :
    (s.readBlock a n)[i] = s.memRead (a + i) := by
  simp [State.readBlock]

/-- A block store writes memory and nothing else. -/
theorem State.storeBlock_eq (s : State) (a : Nat) (bytes : List Byte) :
    s.storeBlock a bytes = { s with memory := (s.storeBlock a bytes).memory } := by
  induction bytes generalizing s a with
  | nil => rfl
  | cons b rest ih =>
    rw [State.storeBlock, ih]
    rfl

theorem State.wf_storeBlock (s : State) (a : Nat) (bytes : List Byte) (h : s.memory.wf) :
    (s.storeBlock a bytes).memory.wf := by
  induction bytes generalizing s a with
  | nil => exact h
  | cons b rest ih => exact ih _ _ (State.wf_memWrite s a b h)

/-- Outside the stored bytes memory reads as before. -/
theorem State.memRead_storeBlock_outside (s : State) (a c : Nat) (bytes : List Byte)
    (h : ∀ i < bytes.length, c % 4096 ≠ (a + i) % 4096) : (s.storeBlock a bytes).memRead c = s.memRead c := by
  induction bytes generalizing s a with
  | nil => rfl
  | cons b rest ih =>
    rw [State.storeBlock, ih, State.memRead_memWrite, if_neg]
    · simpa using h 0 (by simp)
    · intro i hi
      have := h (i + 1) (by simpa using hi)
      rwa [show a + (i + 1) = a + 1 + i by omega] at this

/-- The stored bytes read back, where the block is no longer than memory (across the wrap too). -/
theorem State.memRead_storeBlock_inside (s : State) (a : Nat) (bytes : List Byte) (hlen : bytes.length ≤ 4096)
    (i : Nat) (hi : i < bytes.length) : (s.storeBlock a bytes).memRead (a + i) = bytes[i] := by
  induction bytes generalizing s a i with
  | nil => simp at hi
  | cons b rest ih =>
    simp only [List.length_cons] at hi hlen
    cases i with
    | zero =>
      rw [State.storeBlock, State.memRead_storeBlock_outside, State.memRead_memWrite]
      · simp
      · intro j hj
        omega
    | succ k =>
      rw [State.storeBlock, show a + (k + 1) = a + 1 + k by omega, ih _ _ (by omega) k (by omega)]
      simp

end Sys2Proof.Machine
end

