-- ==== Sys2Proof/Laws/Registers.lean ====
section
/-!
SUPPORT. Registers, flags, stack, block load: what each shared operation does, said once.
-/

namespace Sys2Proof.Machine

theorem State.reg_setReg (s : State) (r q : Reg) (v : Byte) : (s.setReg r v).reg q = if q = r then v else s.reg q := by
  by_cases h : q = r
  · subst h; simp [State.reg]
  · have : ¬ r.val = q.val := fun e => h (Fin.ext e.symm)
    simp [State.reg, h, this]

@[simp] theorem State.reg_setReg_same (s : State) (r : Reg) (v : Byte) : (s.setReg r v).reg r = v := by
  simp [State.reg_setReg]

theorem State.reg_setReg_other (s : State) (r q : Reg) (v : Byte) (h : q ≠ r) : (s.setReg r v).reg q = s.reg q := by
  simp [State.reg_setReg, h]

/-- Two states with one register file read the same registers. -/
theorem State.reg_congr {s t : State} (h : t.V = s.V) (r : Reg) : t.reg r = s.reg r := by
  simp [State.reg, h]

/-- The flag first, the result last (R146). -/
theorem State.reg_setFlagThenReg (s : State) (b : Bool) (x q : Reg) (v : Byte) :
    (s.setFlagThenReg b x v).reg q = if q = x then v else if q = VF then flagByte b else s.reg q := by
  simp [State.setFlagThenReg, State.setFlag, State.reg_setReg]

/-- A block load writes registers and nothing else. -/
theorem State.loadRegs_eq (s : State) (k : Nat) (bytes : List Byte) :
    s.loadRegs k bytes = { s with V := (s.loadRegs k bytes).V } := by
  induction bytes generalizing s k with
  | nil => rfl
  | cons b rest ih =>
    rw [State.loadRegs, ih]
    split <;> rfl

/-- What a block load does: register `k + i` holds byte `i`, every other register is as before. -/
theorem State.reg_loadRegs (s : State) (k : Nat) (bytes : List Byte) (q : Reg) :
    (s.loadRegs k bytes).reg q =
      if h : k ≤ q.val ∧ q.val - k < bytes.length then bytes[q.val - k]'h.2 else s.reg q := by
  induction bytes generalizing s k with
  | nil => simp [State.loadRegs]
  | cons b rest ih =>
    rw [State.loadRegs, ih]
    by_cases hq : q.val = k
    · have hk : k < 16 := hq ▸ q.isLt
      have : q = ⟨k, hk⟩ := Fin.ext hq
      subst this
      simp [hk]
    · have keep : (if h : k < 16 then s.setReg ⟨k, h⟩ b else s).reg q = s.reg q := by
        split
        · exact State.reg_setReg_other _ _ _ _ (fun e => hq (by rw [e]))
        · rfl
      rw [keep]
      by_cases hin : k + 1 ≤ q.val ∧ q.val - (k + 1) < rest.length
      · have h2 : k ≤ q.val ∧ q.val - k < (b :: rest).length := by simp; omega
        rw [dif_pos hin, dif_pos h2]
        simp only [show q.val - k = q.val - (k + 1) + 1 by omega, List.getElem_cons_succ]
      · have h2 : ¬ (k ≤ q.val ∧ q.val - k < (b :: rest).length) := by simp; omega
        rw [dif_neg hin, dif_neg h2]

@[simp] theorem State.regBlock_length (s : State) (x : Reg) : (s.regBlock x).length = x.val + 1 := by
  simp [State.regBlock]

theorem State.regBlock_getElem (s : State) (x : Reg) (i : Nat) (h : i < (s.regBlock x).length) :
    (s.regBlock x)[i] = s.reg ⟨i, by simp at h; omega⟩ := by
  simp [State.regBlock, State.reg]

/-- Under the decided policy no access is out of range (R52). -/
@[simp] theorem outOfRange_wrap12 (a n : Nat) : outOfRange .wrap12 a n = none := rfl

@[simp] theorem State.accessing_wrap12 (s : State) (a n : Nat) (w : Word) (t : State) :
    s.accessing .wrap12 a n w t = t := rfl

/-- A skip changes the program counter and nothing else, and only if it is taken (R128). -/
theorem State.skipIf_eq (s : State) (taken : Bool) : s.skipIf taken = s.setPc (if taken then s.pc + 2 else s.pc) := by
  cases taken <;> rfl

/-- Advancing and then undoing the advance is no change (R102, R204). -/
@[simp] theorem State.retreat_advance (s : State) : s.advance.retreat = s := by
  simp [State.retreat, State.advance, State.setPc]

end Sys2Proof.Machine
end

