-- ==== Sys2Proof/Laws/Keys.lean ====
section
/-!
SUPPORT. Keys, timers, events and the random source: what each shared operation does.
-/

namespace Sys2Proof.Machine

theorem lowestKeyFrom_none (keys : Keypad) (k n : Nat) (h : k + n = 16) :
    lowestKeyFrom keys k n = none ↔ ∀ j : Key, k ≤ j.val → keys[j] = false := by
  induction n generalizing k with
  | zero =>
    simp only [lowestKeyFrom, true_iff]
    intro j hj
    omega
  | succ n ih =>
    have hk : k < 16 := by omega
    simp only [lowestKeyFrom, hk, dite_true]
    by_cases hp : keys[k] = true
    · simp only [hp, if_true, reduceCtorEq, false_iff]
      intro all
      have := all ⟨k, hk⟩ (le_refl k)
      simp_all
    · rw [if_neg hp, ih (k + 1) (by omega)]
      constructor
      · intro all j hj
        by_cases e : j.val = k
        · have : j = ⟨k, hk⟩ := Fin.ext e
          subst this
          simpa using hp
        · exact all j (by omega)
      · intro all j hj
        exact all j (by omega)

theorem lowestKeyFrom_some (keys : Keypad) (k n : Nat) (h : k + n = 16) (key : Key) :
    lowestKeyFrom keys k n = some key ↔
      k ≤ key.val ∧ keys[key] = true ∧ ∀ j : Key, k ≤ j.val → j < key → keys[j] = false := by
  induction n generalizing k with
  | zero =>
    simp only [lowestKeyFrom, reduceCtorEq, false_iff]
    omega
  | succ n ih =>
    have hk : k < 16 := by omega
    simp only [lowestKeyFrom, hk, dite_true]
    by_cases hp : keys[k] = true
    · simp only [hp, if_true, Option.some.injEq]
      constructor
      · rintro rfl
        exact ⟨le_refl k, hp, fun j hj hlt => absurd hlt (by simp [Fin.lt_def]; omega)⟩
      · rintro ⟨hle, _, low⟩
        by_contra ne
        have hlt : (⟨k, hk⟩ : Key) < key := by
          have : key.val ≠ k := fun e => ne (Fin.ext e.symm)
          simp [Fin.lt_def]; omega
        have := low ⟨k, hk⟩ (le_refl k) hlt
        simp_all
    · rw [if_neg hp, ih (k + 1) (by omega)]
      have hf : keys[k] = false := by simpa using hp
      constructor
      · rintro ⟨hle, hkey, low⟩
        refine ⟨by omega, hkey, fun j hj hlt => ?_⟩
        by_cases e : j.val = k
        · have : j = ⟨k, hk⟩ := Fin.ext e
          subst this
          exact hf
        · exact low j (by omega) hlt
      · rintro ⟨hle, hkey, low⟩
        refine ⟨?_, hkey, fun j hj hlt => low j (by omega) hlt⟩
        by_contra e
        have : key = ⟨k, hk⟩ := Fin.ext (by simp; omega)
        subst this
        exact hp hkey

/-- No key is found exactly when none is pressed (R204). -/
theorem lowestKey_none (keys : Keypad) : lowestKey keys = none ↔ ∀ j : Key, keys[j] = false := by
  simpa [lowestKey] using lowestKeyFrom_none keys 0 16 rfl

/-- The key found is pressed, and no lower one is (R204). -/
theorem lowestKey_some (keys : Keypad) (key : Key) :
    lowestKey keys = some key ↔ keys[key] = true ∧ ∀ j : Key, j < key → keys[j] = false := by
  simpa [lowestKey] using lowestKeyFrom_some keys 0 16 rfl key

theorem State.keyOf_some (s : State) (x : Reg) (k : Key) : s.keyOf x = some k ↔ (s.reg x).toNat = k.val := by
  unfold State.keyOf
  split
  · simp [Fin.ext_iff]
  · simp only [reduceCtorEq, false_iff]; omega

theorem State.keyOf_none (s : State) (x : Reg) : s.keyOf x = none ↔ 15 < (s.reg x).toNat := by
  unfold State.keyOf
  split
  · simp only [reduceCtorEq, false_iff]; omega
  · simp only [true_iff]; omega

/-- What the key test does: a key's number skips or not, anything else enters the fault state (R200..R202). -/
theorem State.testKey_cases (s : State) (x : Reg) (level : Bool) (w : Word) :
    (∃ k : Key, (s.reg x).toNat = k.val ∧ s.testKey x level w = s.skipIf (s.keypad[k] == level)) ∨
    (15 < (s.reg x).toNat ∧ s.testKey x level w = s.raiseFault .keyIndex w (some (s.reg x).toNat)) := by
  unfold State.testKey
  cases h : s.keyOf x with
  | some k => exact .inl ⟨k, (s.keyOf_some x k).mp h, rfl⟩
  | none => exact .inr ⟨(s.keyOf_none x).mp h, rfl⟩

/-- A timer counts down to zero and stays there (R231). -/
theorem countDown_toNat (t : Byte) : (countDown t).toNat = t.toNat - 1 := by
  unfold countDown
  split
  · simp_all
  · rename_i h
    have : t.toNat ≠ 0 := fun e => h (BitVec.eq_of_toNat_eq (by simpa using e))
    rw [BitVec.toNat_sub_of_le]
    · rfl
    · simp [BitVec.le_def]; omega

/-- What a tick does: both timers count down, at most one event is emitted, nothing else changes (R231). -/
theorem State.tick_cases (s : State) :
    (s.ST = 1 ∧ s.tick = { s with DT := countDown s.DT, ST := 0, events := s.events ++ [.toneCue] }) ∨
    (s.ST ≠ 1 ∧ s.tick = { s with DT := countDown s.DT, ST := countDown s.ST }) := by
  by_cases h : s.ST = 1
  · left
    refine ⟨h, ?_⟩
    simp [State.tick, State.emit, h, countDown]
  · right
    refine ⟨h, ?_⟩
    have : ¬ (s.ST ≠ 0 ∧ countDown s.ST = 0) := by
      rintro ⟨h0, hz⟩
      have hz' := congrArg BitVec.toNat hz
      rw [countDown_toNat] at hz'
      have : s.ST.toNat ≠ 0 := fun e => h0 (BitVec.eq_of_toNat_eq (by simpa using e))
      apply h
      apply BitVec.eq_of_toNat_eq
      simp at hz' ⊢; omega
    simp only [State.tick, if_neg this]

/-- A draw answers the first supplied byte, or a free value where none is supplied (R160). -/
theorem Rng.draw_cases (r : Rng) :
    (∃ b rest, r.supplied = b :: rest ∧ r.draw = (b, { r with supplied := rest })) ∨
    (r.supplied = [] ∧ r.draw = (Config.randomByte r.drawn, { r with drawn := r.drawn + 1 })) := by
  unfold Rng.draw
  cases h : r.supplied with
  | cons b rest => exact .inl ⟨b, rest, rfl, rfl⟩
  | nil => exact .inr ⟨rfl, rfl⟩

end Sys2Proof.Machine
end

