-- ==== Sys2Proof/Laws/Display.lean ====
section
/-!
SUPPORT. The display: one pixel toggled, and what drawing a row and a sprite does to every pixel and to the collision
(spec/44_display.md R191, R192).
-/

namespace Sys2Proof.Machine

@[simp] theorem wrapCol_val (c : Nat) : (wrapCol c).val = c % 64 := rfl

@[simp] theorem wrapRow_val (r : Nat) : (wrapRow r).val = r % 32 := rfl

@[simp] theorem Display.get_clear (col : Fin 64) (row : Fin 32) : Display.clear.get col row = false := by
  simp [Display.clear, Display.get]

/-- Toggling one pixel changes that pixel and no other. -/
theorem Display.get_toggle (d : Display) (col c : Fin 64) (row r : Fin 32) :
    (d.toggle col row).get c r = if c = col ∧ r = row then !d.get c r else d.get c r := by
  by_cases hr : r = row
  · subst hr
    by_cases hc : c = col
    · subst hc
      simp [Display.toggle, Display.get]
    · have : ¬ col.val = c.val := fun e => hc (Fin.ext e.symm)
      simp [Display.toggle, Display.get, hc, this]
  · have : ¬ row.val = r.val := fun e => hr (Fin.ext e.symm)
    simp [Display.toggle, Display.get, hr, this]

/-- The sprite bit of the byte `b`, drawn from column `x0`, that addresses column `col` in columns `c`, ..., `c + k - 1`. -/
def columnBit (b : Byte) (x0 c k : Nat) (col : Fin 64) : Bool :=
  let offset := (col.val + 64 - x0 % 64) % 64
  decide (c ≤ offset ∧ offset < c + k) && b.getLsbD (7 - offset)

theorem drawColumns_get (b : Byte) (x0 : Nat) (row : Fin 32) (c k : Nat) (hck : c + k ≤ 64) (p : Canvas)
    (col : Fin 64) (r : Fin 32) :
    (drawColumns b x0 row c k p).1.get col r = ((r == row && columnBit b x0 c k col) ^^ p.1.get col r) := by
  induction k generalizing c p with
  | zero =>
    have : columnBit b x0 c 0 col = false := by simp [columnBit]
    simp [drawColumns, this]
  | succ k ih =>
    rw [drawColumns, ih (c + 1) (by omega)]
    have hcol : wrapCol (x0 + c) = col ↔ (col.val + 64 - x0 % 64) % 64 = c := by
      rw [Fin.ext_iff]
      simp only [wrapCol_val]
      have := col.isLt
      omega
    by_cases hoff : (col.val + 64 - x0 % 64) % 64 = c
    · have h1 : columnBit b x0 (c + 1) k col = false := by simp [columnBit, hoff]
      have h2 : columnBit b x0 c (k + 1) col = b.getLsbD (7 - c) := by simp [columnBit, hoff]
      have hc : col = wrapCol (x0 + c) := (hcol.mpr hoff).symm
      rw [h1, h2]
      cases hb : b.getLsbD (7 - c)
      · simp
      · by_cases hr : r = row
        · simp [drawPixel, Display.get_toggle, ← hc, hr]
        · have : (r == row) = false := by simpa using hr
          simp [drawPixel, Display.get_toggle, hr, this]
    · have h12 : columnBit b x0 (c + 1) k col = columnBit b x0 c (k + 1) col := by
        simp only [columnBit]
        congr 1
        apply decide_eq_decide.mpr
        omega
      have hc : ¬ col = wrapCol (x0 + c) := fun e => hoff (hcol.mp e.symm)
      rw [h12]
      split
      · simp [drawPixel, Display.get_toggle, hc]
      · rfl

theorem drawColumns_collision (b : Byte) (x0 : Nat) (row : Fin 32) (c k : Nat) (hck : c + k ≤ 64) (p : Canvas) :
    (drawColumns b x0 row c k p).2 = true ↔
      p.2 = true ∨ ∃ col : Fin 64, columnBit b x0 c k col = true ∧ p.1.get col row = true := by
  induction k generalizing c p with
  | zero =>
    have : ∀ col, columnBit b x0 c 0 col = false := by intro col; simp [columnBit]
    simp [drawColumns, this]
  | succ k ih =>
    rw [drawColumns, ih (c + 1) (by omega)]
    have off : ∀ col : Fin 64, col = wrapCol (x0 + c) ↔ (col.val + 64 - x0 % 64) % 64 = c := by
      intro col
      rw [Fin.ext_iff]
      simp only [wrapCol_val]
      have := col.isLt
      omega
    have next : ∀ col : Fin 64, col ≠ wrapCol (x0 + c) →
        columnBit b x0 (c + 1) k col = columnBit b x0 c (k + 1) col := by
      intro col hc
      have : ¬ (col.val + 64 - x0 % 64) % 64 = c := fun e => hc ((off col).mpr e)
      simp only [columnBit]
      congr 1
      apply decide_eq_decide.mpr
      omega
    have here : columnBit b x0 c (k + 1) (wrapCol (x0 + c)) = b.getLsbD (7 - c) := by
      have := (off _).mp (rfl : wrapCol (x0 + c) = wrapCol (x0 + c))
      simp only [columnBit, this]
      simp
    have gone : columnBit b x0 (c + 1) k (wrapCol (x0 + c)) = false := by
      have := (off _).mp (rfl : wrapCol (x0 + c) = wrapCol (x0 + c))
      simp only [columnBit, this]
      simp
    by_cases hb : b.getLsbD (7 - c) = true
    · rw [if_pos hb]
      simp only [drawPixel, Display.get_toggle, Bool.or_eq_true]
      constructor
      · rintro ((h | h) | ⟨col, hbit, hpix⟩)
        · exact .inl h
        · exact .inr ⟨_, here.trans hb, h⟩
        · have hc : col ≠ wrapCol (x0 + c) := fun e => by rw [e, gone] at hbit; simp at hbit
          rw [if_neg (fun e => hc e.1)] at hpix
          exact .inr ⟨col, (next col hc) ▸ hbit, hpix⟩
      · rintro (h | ⟨col, hbit, hpix⟩)
        · exact .inl (.inl h)
        · by_cases hc : col = wrapCol (x0 + c)
          · subst hc; exact .inl (.inr hpix)
          · refine .inr ⟨col, (next col hc).symm ▸ hbit, ?_⟩
            rw [if_neg (fun e => hc e.1)]
            exact hpix
    · rw [if_neg hb]
      constructor
      · rintro (h | ⟨col, hbit, hpix⟩)
        · exact .inl h
        · have hc : col ≠ wrapCol (x0 + c) := fun e => by rw [e, gone] at hbit; simp at hbit
          exact .inr ⟨col, (next col hc) ▸ hbit, hpix⟩
      · rintro (h | ⟨col, hbit, hpix⟩)
        · exact .inl h
        · have hc : col ≠ wrapCol (x0 + c) := fun e => by rw [e, here] at hbit; exact hb hbit
          exact .inr ⟨col, (next col hc).symm ▸ hbit, hpix⟩

/-- The sprite bit that addresses the pixel `(col, row)` when `rows` is drawn from column `x0` and row `y`: the one in
row `(row - y) mod 32` and column `(col - x0) mod 64` of the sprite, if it has them. -/
def spriteBit (rows : List Byte) (x0 y : Nat) (col : Fin 64) (row : Fin 32) : Bool :=
  let r := (row.val + 32 - y % 32) % 32
  let c := (col.val + 64 - x0 % 64) % 64
  decide (r < rows.length ∧ c < 8) && (rows.getD r 0).getLsbD (7 - c)

theorem spriteBit_nil (x0 y : Nat) (col : Fin 64) (row : Fin 32) : spriteBit [] x0 y col row = false := by
  simp [spriteBit]

theorem spriteBit_cons (b : Byte) (rest : List Byte) (x0 y : Nat) (col : Fin 64) (row : Fin 32) :
    spriteBit (b :: rest) x0 y col row =
      if row = wrapRow y then columnBit b x0 0 8 col else spriteBit rest x0 (y + 1) col row := by
  have hrow : row = wrapRow y ↔ (row.val + 32 - y % 32) % 32 = 0 := by
    rw [Fin.ext_iff]
    simp only [wrapRow_val]
    have := row.isLt
    omega
  by_cases h : (row.val + 32 - y % 32) % 32 = 0
  · rw [if_pos (hrow.mpr h)]
    simp [spriteBit, columnBit, h]
  · rw [if_neg (fun e => h (hrow.mp e))]
    have hr : (row.val + 32 - y % 32) % 32 = (row.val + 32 - (y + 1) % 32) % 32 + 1 := by
      have := row.isLt
      omega
    simp only [spriteBit, hr, List.length_cons, List.getD_cons_succ]
    congr 1
    apply decide_eq_decide.mpr
    omega

theorem spriteBit_own_row (rest : List Byte) (hlen : rest.length < 32) (x0 y : Nat) (col : Fin 64) :
    spriteBit rest x0 (y + 1) col (wrapRow y) = false := by
  have : ((wrapRow y).val + 32 - (y + 1) % 32) % 32 = 31 := by
    simp only [wrapRow_val]
    omega
  simp only [spriteBit, this, Bool.and_eq_false_iff, decide_eq_false_iff_not]
  omega

/-- What a draw does to every pixel: XOR with the sprite bit that addresses it, wrapping (R191, R192). -/
theorem drawRows_get (rows : List Byte) (hlen : rows.length ≤ 32) (x0 y : Nat) (p : Canvas) (col : Fin 64) (row : Fin 32) :
    (drawRows rows x0 y p).1.get col row = (spriteBit rows x0 y col row ^^ p.1.get col row) := by
  induction rows generalizing y p with
  | nil => simp [drawRows, spriteBit_nil]
  | cons b rest ih =>
    simp only [List.length_cons] at hlen
    rw [drawRows, ih (by omega), drawColumns_get _ _ _ _ _ (by omega), spriteBit_cons]
    by_cases hrow : row = wrapRow y
    · rw [if_pos hrow, hrow, spriteBit_own_row _ (by omega)]
      simp
    · have : (row == wrapRow y) = false := by simpa using hrow
      rw [if_neg hrow, this]
      simp

/-- The collision of a draw: a set sprite bit addressed a pixel that was 1 (R191, R194). -/
theorem drawRows_collision (rows : List Byte) (hlen : rows.length ≤ 32) (x0 y : Nat) (p : Canvas) :
    (drawRows rows x0 y p).2 = true ↔
      p.2 = true ∨ ∃ (col : Fin 64) (row : Fin 32), spriteBit rows x0 y col row = true ∧ p.1.get col row = true := by
  induction rows generalizing y p with
  | nil => simp [drawRows, spriteBit_nil]
  | cons b rest ih =>
    simp only [List.length_cons] at hlen
    rw [drawRows, ih (by omega), drawColumns_collision _ _ _ _ _ (by omega)]
    constructor
    · rintro ((h | ⟨col, hbit, hpix⟩) | ⟨col, row, hbit, hpix⟩)
      · exact .inl h
      · refine .inr ⟨col, wrapRow y, ?_, hpix⟩
        rw [spriteBit_cons, if_pos rfl]
        exact hbit
      · have hrow : row ≠ wrapRow y := fun e => by
          rw [e, spriteBit_own_row _ (by omega)] at hbit
          simp at hbit
        refine .inr ⟨col, row, ?_, ?_⟩
        · rw [spriteBit_cons, if_neg hrow]
          exact hbit
        · have : (row == wrapRow y) = false := by simpa using hrow
          rw [drawColumns_get _ _ _ _ _ (by omega), this] at hpix
          simpa using hpix
    · rintro (h | ⟨col, row, hbit, hpix⟩)
      · exact .inl (.inl h)
      · rw [spriteBit_cons] at hbit
        by_cases hrow : row = wrapRow y
        · rw [if_pos hrow] at hbit
          subst hrow
          exact .inl (.inr ⟨col, hbit, hpix⟩)
        · rw [if_neg hrow] at hbit
          refine .inr ⟨col, row, hbit, ?_⟩
          have : (row == wrapRow y) = false := by simpa using hrow
          rw [drawColumns_get _ _ _ _ _ (by omega), this]
          simpa using hpix

end Sys2Proof.Machine
end

