-- ==== Sys2Proof/Laws/Encoding.lean ====
section
/-!
SUPPORT. Instruction words: the fields as numbers, the fields of an encoded word, and the masks of the opcode map
(spec/30_encoding.md R81, R85, R90).
-/

namespace Sys2Proof

/-! ## The fields as numbers (R81) -/

theorem fieldOp_eq (w : Word) : fieldOp w = w.toNat / 4096 := by
  have := w.isLt
  simp [fieldOp, Nat.shiftRight_eq_div_pow]
  omega

theorem fieldX_val (w : Word) : (fieldX w).val = w.toNat / 256 % 16 := by
  simp [fieldX, Nat.shiftRight_eq_div_pow]

theorem fieldY_val (w : Word) : (fieldY w).val = w.toNat / 16 % 16 := by
  simp [fieldY, Nat.shiftRight_eq_div_pow]

theorem fieldN_eq (w : Word) : fieldN w = w.toNat % 16 := by
  simp [fieldN]

theorem fieldKK_toNat (w : Word) : (fieldKK w).toNat = w.toNat % 256 := by
  simp [fieldKK]

theorem fieldNNN_toNat (w : Word) : (fieldNNN w).toNat = w.toNat % 4096 := by
  simp [fieldNNN]

/-- The family is one of sixteen. -/
theorem fieldOp_lt (w : Word) : fieldOp w < 16 := by
  have := w.isLt
  rw [fieldOp_eq]
  omega

/-! ## The fields of an encoded word (R90) -/

theorem toNat_wordNNN (op : Nat) (nnn : Addr) (h : op < 16) : (wordNNN op nnn).toNat = op * 4096 + nnn.toNat := by
  have := nnn.isLt
  simp only [wordNNN, BitVec.toNat_ofNat]
  omega

theorem toNat_wordXKK (op : Nat) (x : Reg) (kk : Byte) (h : op < 16) :
    (wordXKK op x kk).toNat = op * 4096 + x.val * 256 + kk.toNat := by
  have := kk.isLt
  have := x.isLt
  simp only [wordXKK, BitVec.toNat_ofNat]
  omega

theorem toNat_wordXYN (op : Nat) (x y : Reg) (n : Nat) (h : op < 16) (hn : n < 16) :
    (wordXYN op x y n).toNat = op * 4096 + x.val * 256 + y.val * 16 + n := by
  have := x.isLt
  have := y.isLt
  simp only [wordXYN, BitVec.toNat_ofNat]
  omega

theorem fields_wordNNN (op : Nat) (nnn : Addr) (h : op < 16) :
    fieldOp (wordNNN op nnn) = op ∧ fieldNNN (wordNNN op nnn) = nnn := by
  have := nnn.isLt
  refine ⟨?_, BitVec.eq_of_toNat_eq ?_⟩
  · rw [fieldOp_eq, toNat_wordNNN _ _ h]; omega
  · rw [fieldNNN_toNat, toNat_wordNNN _ _ h]; omega

theorem fields_wordXKK (op : Nat) (x : Reg) (kk : Byte) (h : op < 16) :
    fieldOp (wordXKK op x kk) = op ∧ fieldX (wordXKK op x kk) = x ∧ fieldKK (wordXKK op x kk) = kk := by
  have := kk.isLt
  have := x.isLt
  refine ⟨?_, Fin.ext ?_, BitVec.eq_of_toNat_eq ?_⟩
  · rw [fieldOp_eq, toNat_wordXKK _ _ _ h]; omega
  · rw [fieldX_val, toNat_wordXKK _ _ _ h]; omega
  · rw [fieldKK_toNat, toNat_wordXKK _ _ _ h]; omega

theorem fields_wordXYN (op : Nat) (x y : Reg) (n : Nat) (h : op < 16) (hn : n < 16) :
    fieldOp (wordXYN op x y n) = op ∧ fieldX (wordXYN op x y n) = x ∧ fieldY (wordXYN op x y n) = y ∧
      fieldN (wordXYN op x y n) = n := by
  have := x.isLt
  have := y.isLt
  refine ⟨?_, Fin.ext ?_, Fin.ext ?_, ?_⟩
  · rw [fieldOp_eq, toNat_wordXYN _ _ _ _ h hn]; omega
  · rw [fieldX_val, toNat_wordXYN _ _ _ _ h hn]; omega
  · rw [fieldY_val, toNat_wordXYN _ _ _ _ h hn]; omega
  · rw [fieldN_eq, toNat_wordXYN _ _ _ _ h hn]; omega

/-! ## A word from its fields -/

theorem word_eq_NNN (w : Word) : wordNNN (fieldOp w) (fieldNNN w) = w := by
  apply BitVec.eq_of_toNat_eq
  rw [toNat_wordNNN _ _ (fieldOp_lt w), fieldOp_eq, fieldNNN_toNat]
  omega

theorem word_eq_XKK (w : Word) : wordXKK (fieldOp w) (fieldX w) (fieldKK w) = w := by
  apply BitVec.eq_of_toNat_eq
  rw [toNat_wordXKK _ _ _ (fieldOp_lt w), fieldOp_eq, fieldX_val, fieldKK_toNat]
  omega

theorem word_eq_XYN (w : Word) : wordXYN (fieldOp w) (fieldX w) (fieldY w) (fieldN w) = w := by
  apply BitVec.eq_of_toNat_eq
  rw [toNat_wordXYN _ _ _ _ (fieldOp_lt w) (by rw [fieldN_eq]; omega), fieldOp_eq, fieldX_val, fieldY_val, fieldN_eq]
  omega

/-! ## The masks of the opcode map (R85) -/

/-- A mask of the family and the low `k` bits keeps those. -/
theorem and_split (w : Word) (k : Nat) (mask : Word) (hk : k ≤ 12)
    (hm : ∀ i < 16, mask.getLsbD i = decide (i < k ∨ 12 ≤ i)) :
    w &&& mask = BitVec.ofNat 16 (w.toNat / 4096 * 4096 + w.toNat % 2 ^ k) := by
  apply BitVec.eq_of_getLsbD_eq
  intro i hi
  have hlt : w.toNat % 2 ^ k < 2 ^ 12 := lt_of_lt_of_le (Nat.mod_lt _ (by positivity)) (Nat.pow_le_pow_right (by decide) hk)
  rw [BitVec.getLsbD_and, hm i hi, BitVec.getLsbD_ofNat, show w.toNat / 4096 * 4096 = 2 ^ 12 * (w.toNat / 2 ^ 12) by omega,
    Nat.testBit_two_pow_mul_add _ hlt]
  simp only [hi, decide_true, Bool.true_and, Nat.testBit_mod_two_pow, Nat.testBit_div_two_pow]
  by_cases h12 : i < 12
  · have : ¬ 12 ≤ i := by omega
    simp [h12, this, BitVec.getLsbD, Bool.and_comm]
  · have h12' : 12 ≤ i := by omega
    simp [h12, h12', BitVec.getLsbD]

/-- The whole word selects: format W. -/
theorem selects_FFFF (w bits : Word) : w &&& 0xFFFF = bits ↔ w = bits := by
  rw [show (0xFFFF : Word) = BitVec.allOnes 16 from rfl, BitVec.and_allOnes]

/-- The family alone selects the word: formats NNN, XKK and XYN. -/
theorem selects_F000 (w bits : Word) (hb : bits.toNat % 4096 = 0) :
    w &&& 0xF000 = bits ↔ fieldOp w = bits.toNat / 4096 := by
  have hw := w.isLt
  have hbits := bits.isLt
  rw [and_split w 0 0xF000 (by decide) (by decide), fieldOp_eq, ← BitVec.toNat_inj, BitVec.toNat_ofNat, pow_zero, Nat.mod_one]
  omega

/-- The family and the low nibble select the word: formats XY0 and XYS. -/
theorem selects_F00F (w bits : Word) (hb : bits.toNat % 4096 < 16) :
    w &&& 0xF00F = bits ↔ fieldOp w = bits.toNat / 4096 ∧ fieldN w = bits.toNat % 4096 := by
  have hw := w.isLt
  have hbits := bits.isLt
  rw [and_split w 4 0xF00F (by decide) (by decide), fieldOp_eq, fieldN_eq, ← BitVec.toNat_inj, BitVec.toNat_ofNat]
  omega

/-- The family and the low byte select the word: format XSS. -/
theorem selects_F0FF (w bits : Word) (hb : bits.toNat % 4096 < 256) :
    w &&& 0xF0FF = bits ↔ fieldOp w = bits.toNat / 4096 ∧ (fieldKK w).toNat = bits.toNat % 4096 := by
  have hw := w.isLt
  have hbits := bits.isLt
  rw [and_split w 8 0xF0FF (by decide) (by decide), fieldOp_eq, fieldKK_toNat, ← BitVec.toNat_inj, BitVec.toNat_ofNat]
  omega

/-! ## Bytes (R53) -/

/-- Laying a word out in memory order and reading it back gives the word. -/
theorem wordOfBytes_bytes (w : Word) : wordOfBytes (highByte w) (lowByte w) = w := by
  have hw := w.isLt
  apply BitVec.eq_of_toNat_eq
  simp only [wordOfBytes, highByte, lowByte, BitVec.toNat_ofNat, BitVec.extractLsb'_toNat, Nat.shiftRight_eq_div_pow]
  omega

theorem decodeBytes_bytesOfWord (w : Word) : decodeBytes (bytesOfWord w) = decode w := by
  simp [decodeBytes, bytesOfWord, wordOfBytes_bytes]

/-- The decoder reads every word: it answers an instruction or that very word as unknown (R84). -/
theorem decode_unknown_word (w v : Word) (h : decode w = .unknown v) : v = w := by
  unfold decode decodeFamily8 decodeFamilyF at h
  repeat' split at h
  all_goals simp_all

theorem decode_ne_truncated (w : Word) : decode w ≠ .truncated := by
  unfold decode decodeFamily8 decodeFamilyF
  repeat' split
  all_goals simp

end Sys2Proof
end

