-- ==== Sys2Proof/Laws/Cycle.lean ====
section
/-!
SUPPORT. The cycle and runs of it: what begins an operation does not touch what is fetched, and how runs compose.
-/

namespace Sys2Proof.Machine

/-- The fetched word depends on memory and `pc` alone (R101). -/
theorem State.fetchWord_congr {s t : State} (hm : t.memory = s.memory) (hp : t.pc = s.pc) : t.fetchWord = s.fetchWord := by
  simp [State.fetchWord, State.memRead, hm, hp]

@[simp] theorem State.fetchWord_begin (s : State) : s.begin.fetchWord = s.fetchWord := rfl

@[simp] theorem State.fetchWord_hostActs (s : State) : s.hostActs.fetchWord = s.fetchWord := rfl

/-- The answers of the cycle of a running machine: the instruction's, or the reported no-op (R104, R106). -/
theorem State.runWord_cases (s : State) (w : Word) :
    (∃ i, decode w = .instr i ∧ s.runWord w = exec i s.advance) ∨
    (decode w = .unknown w ∧ s.runWord w = .next (s.advance.emit (.unknownOpcode w s.pc))) := by
  cases h : decode w with
  | instr i => exact .inl ⟨i, rfl, by simp only [State.runWord, h]⟩
  | unknown v =>
    obtain rfl := decode_unknown_word w v h
    exact .inr ⟨rfl, by simp only [State.runWord, h]⟩
  | truncated => exact absurd h (decode_ne_truncated w)

/-- A tick after a next state is that state's tick. -/
@[simp] theorem tickAfter_next (timerTick : Bool) (s : State) : tickAfter timerTick (.next s) = .next (s.tickIf timerTick) := rfl

/-- What a tick, if asked for, leaves alone. -/
theorem State.tickIf_eq (s : State) (timerTick : Bool) :
    ∃ dt st ev, s.tickIf timerTick = { s with DT := dt, ST := st, events := s.events ++ ev } ∧ (ev = [] ∨ ev = [.toneCue]) := by
  cases timerTick with
  | false => exact ⟨s.DT, s.ST, [], by simp [State.tickIf], .inl rfl⟩
  | true =>
    rcases s.tick_cases with ⟨_, h⟩ | ⟨_, h⟩
    · exact ⟨_, _, [.toneCue], by simp only [State.tickIf, if_true]; exact h, .inr rfl⟩
    · exact ⟨countDown s.DT, countDown s.ST, [], by simp only [State.tickIf, if_true, List.append_nil]; exact h, .inl rfl⟩

/-- What `exec` as a whole can do, said once: nothing in the fault state, the decoded instruction, or the reported no-op
(R105, R104, R106). -/
theorem State.cycle_cases {s t : State} (h : s.cycle = .next t) :
    t = s ∨ (s.fault = none ∧ ∃ i, decode s.fetchWord = .instr i ∧ exec i s.advance = .next t) ∨
      (s.fault = none ∧ decode s.fetchWord = .unknown s.fetchWord ∧ t = s.advance.emit (.unknownOpcode s.fetchWord s.pc)) := by
  cases hf : s.fault with
  | some r =>
    simp only [State.cycle, State.cycleUnder, hf] at h
    exact .inl (Host.Outcome.next.inj h).symm
  | none =>
    have e : s.cycle = s.runWord s.fetchWord := by simp only [State.cycle, State.cycleUnder, hf, Config.memOobPolicy, outOfRange_wrap12]
    rw [e] at h
    rcases s.runWord_cases s.fetchWord with ⟨i, hd, hi⟩ | ⟨hd, hu⟩
    · exact .inr (.inl ⟨rfl, i, hd, hi ▸ h⟩)
    · exact .inr (.inr ⟨rfl, hd, (Host.Outcome.next.inj (hu ▸ h)).symm⟩)

/-- What a step can do, said once: the host's accesses, `exec` as a whole, and the tick if asked for (R108, R109). -/
theorem step_cases {s t : State} (h : step s = .next t) :
    ∃ u, s.hostActs.begin.cycle = .next u ∧ t = u.tickIf s.nextInput.timerTick := by
  unfold step State.stepOp State.execOp at h
  cases hc : s.hostActs.begin.cycle with
  | next u =>
    rw [hc] at h
    exact ⟨u, rfl, (Host.Outcome.next.inj h).symm⟩
  | fault r => cases r
  | refused r =>
    rw [hc] at h
    cases h

/-! ## Runs -/

theorem run_zero (s : State) : core.run 0 s = .next s := Host.Core.run.eq_1 core s

/-- A run begins with a step. -/
theorem run_first_step {s t : State} (k : Nat) (h : step s = .next t) : core.run (k + 1) s = core.run k t := by
  have e := Host.Core.run.eq_2 core s k
  rw [show core.step s = Host.Outcome.next t from h] at e
  exact e

/-- A run goes on with one more step. -/
theorem run_last_step {s t u : State} (k : Nat) (h : core.run k s = .next t) (h2 : step t = .next u) :
    core.run (k + 1) s = .next u := by
  induction k generalizing s with
  | zero =>
    rw [run_zero] at h
    obtain rfl : s = t := Host.Outcome.next.inj h
    rw [run_first_step 0 h2]
    exact run_zero u
  | succ k ih =>
    cases hs : step s with
    | next v =>
      rw [run_first_step _ hs] at h ⊢
      exact ih h
    | fault r => cases r
    | refused r =>
      have e := Host.Core.run.eq_2 core s k
      rw [show core.step s = Host.Outcome.refused r from hs] at e
      rw [show core.run (k + 1) s = _ from e] at h
      cases h

end Sys2Proof.Machine
end

