-- ==== Sys2Proof/Laws/Frames.lean ====
section
/-!
SUPPORT. Frames compose, and taking a fault undoes the advance (spec/60_exceptions.md R223).
-/

namespace Sys2Proof.Machine

theorem KeepsAllBut.refl (changed : List Part) (s : State) : KeepsAllBut changed s s := by
  intro p _
  cases p <;> simp [Part.Same]

/-- Two frames one after the other. -/
theorem KeepsAllBut.trans {changed : List Part} {s t u : State} (h1 : KeepsAllBut changed s t)
    (h2 : KeepsAllBut changed t u) : KeepsAllBut changed s u := by
  intro p hp
  have a := h1 p hp
  have b := h2 p hp
  cases p <;> simp_all [Part.Same]

/-- A frame that allows less holds where one that allows more is asked for. -/
theorem KeepsAllBut.mono {changed more : List Part} {s t : State} (h : KeepsAllBut changed s t)
    (hsub : ∀ p ∈ changed, p ∈ more) : KeepsAllBut more s t := fun p hp => h p (fun e => hp (hsub p e))

/-- A block store changes memory alone. -/
theorem State.storeBlock_frame (s : State) (a : Nat) (bytes : List Byte) : KeepsAllBut [.memory] s (s.storeBlock a bytes) := by
  rw [State.storeBlock_eq]
  intro p hp
  cases p <;> simp_all [Part.Same, State.reg]

/-- A block load changes registers alone. -/
theorem State.loadRegs_frame (s : State) (k : Nat) (bytes : List Byte) : KeepsAllBut [.V] s (s.loadRegs k bytes) := by
  rw [State.loadRegs_eq]
  intro p hp
  cases p <;> simp_all [Part.Same, State.memRead]

/-- A fault taken where `pc` is advanced leaves the state before the advance, with the record and the event (R223). -/
theorem State.raiseFault_advance (s : State) (kind : FaultKind) (w : Word) (info : Option Nat) :
    s.advance.raiseFault kind w info =
      { s with fault := some ⟨kind, s.pc, w, info⟩, events := s.events ++ [.fault kind s.pc] } := by
  simp [State.raiseFault, State.advance, State.setPc]

end Sys2Proof.Machine
end

