-- ==== Sys2Proof/Laws/PerInstr.lean ====
section
/-!
SUPPORT. Statements for all instructions, one lemma per constructor. Family `RoundTrip`: decoding the word of a
well-formed instruction gives the instruction back, every operand at every value (spec/30_encoding.md R84, R90).
-/

namespace Sys2Proof.Laws

/-- The word of a well-formed instruction decodes to it. -/
def RoundTrip.Statement (i : Instr) : Prop := WellFormed i = true → decode (encode i) = .instr i

theorem RoundTrip.cls : RoundTrip.Statement .cls := fun _ => rfl

theorem RoundTrip.ret : RoundTrip.Statement .ret := fun _ => rfl

theorem RoundTrip.jp (nnn : Addr) : RoundTrip.Statement (.jp nnn) := by
  intro _
  obtain ⟨ho, hn⟩ := fields_wordNNN 1 nnn (by decide)
  simp only [encode, decode, ho, hn]

theorem RoundTrip.call (nnn : Addr) : RoundTrip.Statement (.call nnn) := by
  intro _
  obtain ⟨ho, hn⟩ := fields_wordNNN 2 nnn (by decide)
  simp only [encode, decode, ho, hn]

theorem RoundTrip.seImm (x : Reg) (kk : Byte) : RoundTrip.Statement (.seImm x kk) := by
  intro _
  obtain ⟨ho, hx, hk⟩ := fields_wordXKK 3 x kk (by decide)
  simp only [encode, decode, ho, hx, hk]

theorem RoundTrip.sneImm (x : Reg) (kk : Byte) : RoundTrip.Statement (.sneImm x kk) := by
  intro _
  obtain ⟨ho, hx, hk⟩ := fields_wordXKK 4 x kk (by decide)
  simp only [encode, decode, ho, hx, hk]

theorem RoundTrip.seReg (x y : Reg) : RoundTrip.Statement (.seReg x y) := by
  intro _
  obtain ⟨ho, hx, hy, hn⟩ := fields_wordXYN 5 x y 0 (by decide) (by decide)
  simp only [encode, decode, ho, hx, hy, hn, if_true]

theorem RoundTrip.ldImm (x : Reg) (kk : Byte) : RoundTrip.Statement (.ldImm x kk) := by
  intro _
  obtain ⟨ho, hx, hk⟩ := fields_wordXKK 6 x kk (by decide)
  simp only [encode, decode, ho, hx, hk]

theorem RoundTrip.addImm (x : Reg) (kk : Byte) : RoundTrip.Statement (.addImm x kk) := by
  intro _
  obtain ⟨ho, hx, hk⟩ := fields_wordXKK 7 x kk (by decide)
  simp only [encode, decode, ho, hx, hk]

theorem RoundTrip.ldReg (x y : Reg) : RoundTrip.Statement (.ldReg x y) := by
  intro _
  obtain ⟨ho, hx, hy, hn⟩ := fields_wordXYN 8 x y 0 (by decide) (by decide)
  simp only [encode, decode, decodeFamily8, ho, hx, hy, hn]

theorem RoundTrip.orReg (x y : Reg) : RoundTrip.Statement (.orReg x y) := by
  intro _
  obtain ⟨ho, hx, hy, hn⟩ := fields_wordXYN 8 x y 1 (by decide) (by decide)
  simp only [encode, decode, decodeFamily8, ho, hx, hy, hn]

theorem RoundTrip.andReg (x y : Reg) : RoundTrip.Statement (.andReg x y) := by
  intro _
  obtain ⟨ho, hx, hy, hn⟩ := fields_wordXYN 8 x y 2 (by decide) (by decide)
  simp only [encode, decode, decodeFamily8, ho, hx, hy, hn]

theorem RoundTrip.xorReg (x y : Reg) : RoundTrip.Statement (.xorReg x y) := by
  intro _
  obtain ⟨ho, hx, hy, hn⟩ := fields_wordXYN 8 x y 3 (by decide) (by decide)
  simp only [encode, decode, decodeFamily8, ho, hx, hy, hn]

theorem RoundTrip.addReg (x y : Reg) : RoundTrip.Statement (.addReg x y) := by
  intro _
  obtain ⟨ho, hx, hy, hn⟩ := fields_wordXYN 8 x y 4 (by decide) (by decide)
  simp only [encode, decode, decodeFamily8, ho, hx, hy, hn]

theorem RoundTrip.sub (x y : Reg) : RoundTrip.Statement (.sub x y) := by
  intro _
  obtain ⟨ho, hx, hy, hn⟩ := fields_wordXYN 8 x y 5 (by decide) (by decide)
  simp only [encode, decode, decodeFamily8, ho, hx, hy, hn]

theorem RoundTrip.shr (x y : Reg) : RoundTrip.Statement (.shr x y) := by
  intro _
  obtain ⟨ho, hx, hy, hn⟩ := fields_wordXYN 8 x y 6 (by decide) (by decide)
  simp only [encode, decode, decodeFamily8, ho, hx, hy, hn]

theorem RoundTrip.subn (x y : Reg) : RoundTrip.Statement (.subn x y) := by
  intro _
  obtain ⟨ho, hx, hy, hn⟩ := fields_wordXYN 8 x y 7 (by decide) (by decide)
  simp only [encode, decode, decodeFamily8, ho, hx, hy, hn]

theorem RoundTrip.shl (x y : Reg) : RoundTrip.Statement (.shl x y) := by
  intro _
  obtain ⟨ho, hx, hy, hn⟩ := fields_wordXYN 8 x y 14 (by decide) (by decide)
  simp only [encode, decode, decodeFamily8, ho, hx, hy, hn]

theorem RoundTrip.sneReg (x y : Reg) : RoundTrip.Statement (.sneReg x y) := by
  intro _
  obtain ⟨ho, hx, hy, hn⟩ := fields_wordXYN 9 x y 0 (by decide) (by decide)
  simp only [encode, decode, ho, hx, hy, hn, if_true]

theorem RoundTrip.ldI (nnn : Addr) : RoundTrip.Statement (.ldI nnn) := by
  intro _
  obtain ⟨ho, hn⟩ := fields_wordNNN 10 nnn (by decide)
  simp only [encode, decode, ho, hn]

theorem RoundTrip.jpV0 (nnn : Addr) : RoundTrip.Statement (.jpV0 nnn) := by
  intro _
  obtain ⟨ho, hn⟩ := fields_wordNNN 11 nnn (by decide)
  simp only [encode, decode, ho, hn]

theorem RoundTrip.rnd (x : Reg) (kk : Byte) : RoundTrip.Statement (.rnd x kk) := by
  intro _
  obtain ⟨ho, hx, hk⟩ := fields_wordXKK 12 x kk (by decide)
  simp only [encode, decode, ho, hx, hk]

theorem RoundTrip.drw (x y : Reg) (n : Nat) : RoundTrip.Statement (.drw x y n) := by
  intro h
  obtain ⟨ho, hx, hy, hn⟩ := fields_wordXYN 13 x y n (by decide) (by simpa [WellFormed] using h)
  simp only [encode, decode, ho, hx, hy, hn]

theorem RoundTrip.skp (x : Reg) : RoundTrip.Statement (.skp x) := by
  intro _
  obtain ⟨ho, hx, hk⟩ := fields_wordXKK 14 x 0x9E (by decide)
  simp only [encode, decode, ho, hx, hk]
  rfl

theorem RoundTrip.sknp (x : Reg) : RoundTrip.Statement (.sknp x) := by
  intro _
  obtain ⟨ho, hx, hk⟩ := fields_wordXKK 14 x 0xA1 (by decide)
  simp only [encode, decode, ho, hx, hk]
  rfl

theorem RoundTrip.ldVxDt (x : Reg) : RoundTrip.Statement (.ldVxDt x) := by
  intro _
  obtain ⟨ho, hx, hk⟩ := fields_wordXKK 15 x 0x07 (by decide)
  simp only [encode, decode, decodeFamilyF, ho, hx, hk]
  rfl

theorem RoundTrip.ldVxK (x : Reg) : RoundTrip.Statement (.ldVxK x) := by
  intro _
  obtain ⟨ho, hx, hk⟩ := fields_wordXKK 15 x 0x0A (by decide)
  simp only [encode, decode, decodeFamilyF, ho, hx, hk]
  rfl

theorem RoundTrip.ldDt (x : Reg) : RoundTrip.Statement (.ldDt x) := by
  intro _
  obtain ⟨ho, hx, hk⟩ := fields_wordXKK 15 x 0x15 (by decide)
  simp only [encode, decode, decodeFamilyF, ho, hx, hk]
  rfl

theorem RoundTrip.ldSt (x : Reg) : RoundTrip.Statement (.ldSt x) := by
  intro _
  obtain ⟨ho, hx, hk⟩ := fields_wordXKK 15 x 0x18 (by decide)
  simp only [encode, decode, decodeFamilyF, ho, hx, hk]
  rfl

theorem RoundTrip.addI (x : Reg) : RoundTrip.Statement (.addI x) := by
  intro _
  obtain ⟨ho, hx, hk⟩ := fields_wordXKK 15 x 0x1E (by decide)
  simp only [encode, decode, decodeFamilyF, ho, hx, hk]
  rfl

theorem RoundTrip.ldF (x : Reg) : RoundTrip.Statement (.ldF x) := by
  intro _
  obtain ⟨ho, hx, hk⟩ := fields_wordXKK 15 x 0x29 (by decide)
  simp only [encode, decode, decodeFamilyF, ho, hx, hk]
  rfl

theorem RoundTrip.ldB (x : Reg) : RoundTrip.Statement (.ldB x) := by
  intro _
  obtain ⟨ho, hx, hk⟩ := fields_wordXKK 15 x 0x33 (by decide)
  simp only [encode, decode, decodeFamilyF, ho, hx, hk]
  rfl

theorem RoundTrip.ldMemStore (x : Reg) : RoundTrip.Statement (.ldMemStore x) := by
  intro _
  obtain ⟨ho, hx, hk⟩ := fields_wordXKK 15 x 0x55 (by decide)
  simp only [encode, decode, decodeFamilyF, ho, hx, hk]
  rfl

theorem RoundTrip.ldMemLoad (x : Reg) : RoundTrip.Statement (.ldMemLoad x) := by
  intro _
  obtain ⟨ho, hx, hk⟩ := fields_wordXKK 15 x 0x65 (by decide)
  simp only [encode, decode, decodeFamilyF, ho, hx, hk]
  rfl

end Sys2Proof.Laws
end

