-- ==== Sys2Proof/Tests/Slice0.lean ====
section
/-!
SUPPORT. The model's own tests: ill-formed terms refused, words written out from the encodings decoded, one step per
vector of spec/95_test_vectors.md (its id stands in each comment), and a witness for the hypotheses of every statement
that has some.
-/

namespace Sys2Proof.Tests

open Sys2Proof.Machine

/-! ## Helpers -/

/-- The state after reset with these registers. -/
def start (regs : List (Reg × Byte)) : State := regs.foldl (fun s r => s.setReg r.1 r.2) State.reset

/-- The state after reset with this word where the next fetch reads. -/
def placed (w : Word) : State := State.reset.placeWord w

/-- A sprite byte at address 0x380, where `I` points. -/
def sprite (regs : List (Reg × Byte)) (b : Byte) : State := ((start regs).setI 0x380).memWrite 0x380 b

/-- These keys down. -/
def keysDown (ks : List Key) : Keypad := ks.foldl (fun (d : Keypad) (k : Key) => d.set k.val true k.isLt) (Vector.replicate 16 false)

/-- The state after `step(timer_tick)` on the word placed at `pc`; `s` itself, should it not answer one. -/
def after (s : State) (w : Word) (timerTick : Bool := false) : State :=
  match (s.placeWord w).stepOp timerTick with
  | .next t => t
  | .fault _ | .refused _ => s

/-- The set pixels of a row, by column. -/
def pixels (s : State) (row : Fin 32) : List Nat := ((List.finRange 64).filter (fun c => s.display.get c row)).map Fin.val

/-! ## Well-formedness -/

theorem test_wf_drw_sixteen_rows_refused : WellFormed (.drw 0 0 16) = false := by decide
theorem test_wf_drw_fifteen_rows : WellFormed (.drw 0 0 15) = true := by decide
theorem test_wf_rom_too_large : RomFits (List.replicate 3585 0) = false :=
  decide_eq_false (by rw [List.length_replicate]; decide)
theorem test_wf_rom_full : RomFits (List.replicate 3584 0xAA) = true :=
  decide_eq_true (by rw [List.length_replicate])

/-! ## Decoding: each word written from its pattern in spec/30_encoding.md R85, fields by R81 -/

theorem test_decode_cls : decode 0x00E0 = .instr .cls := by decide
theorem test_decode_ret : decode 0x00EE = .instr .ret := by decide
theorem test_decode_jp : decode 0x1ABC = .instr (.jp 0xABC) := by decide
theorem test_decode_call : decode 0x2210 = .instr (.call 0x210) := by decide
theorem test_decode_seImm : decode 0x3A7B = .instr (.seImm 0xA 0x7B) := by decide
theorem test_decode_sneImm : decode 0x4F01 = .instr (.sneImm 0xF 0x01) := by decide
theorem test_decode_seReg : decode 0x5120 = .instr (.seReg 1 2) := by decide
theorem test_decode_ldImm : decode 0x6A42 = .instr (.ldImm 0xA 0x42) := by decide
theorem test_decode_addImm : decode 0x71FF = .instr (.addImm 1 0xFF) := by decide
theorem test_decode_ldReg : decode 0x8120 = .instr (.ldReg 1 2) := by decide
theorem test_decode_orReg : decode 0x8121 = .instr (.orReg 1 2) := by decide
theorem test_decode_andReg : decode 0x8122 = .instr (.andReg 1 2) := by decide
theorem test_decode_xorReg : decode 0x8123 = .instr (.xorReg 1 2) := by decide
theorem test_decode_addReg : decode 0x8354 = .instr (.addReg 3 5) := by decide
theorem test_decode_sub : decode 0x8125 = .instr (.sub 1 2) := by decide
theorem test_decode_shr : decode 0x8126 = .instr (.shr 1 2) := by decide
theorem test_decode_subn : decode 0x8127 = .instr (.subn 1 2) := by decide
theorem test_decode_shl : decode 0x812E = .instr (.shl 1 2) := by decide
theorem test_decode_sneReg : decode 0x9120 = .instr (.sneReg 1 2) := by decide
theorem test_decode_ldI : decode 0xA2F0 = .instr (.ldI 0x2F0) := by decide
theorem test_decode_jpV0 : decode 0xB300 = .instr (.jpV0 0x300) := by decide
theorem test_decode_rnd : decode 0xC30F = .instr (.rnd 3 0x0F) := by decide
theorem test_decode_drw : decode 0xD12F = .instr (.drw 1 2 15) := by decide
theorem test_decode_skp : decode 0xE59E = .instr (.skp 5) := by decide
theorem test_decode_sknp : decode 0xE5A1 = .instr (.sknp 5) := by decide
theorem test_decode_ldVxDt : decode 0xF307 = .instr (.ldVxDt 3) := by decide
theorem test_decode_ldVxK : decode 0xF10A = .instr (.ldVxK 1) := by decide
theorem test_decode_ldDt : decode 0xF115 = .instr (.ldDt 1) := by decide
theorem test_decode_ldSt : decode 0xF218 = .instr (.ldSt 2) := by decide
theorem test_decode_addI : decode 0xF11E = .instr (.addI 1) := by decide
theorem test_decode_ldF : decode 0xF229 = .instr (.ldF 2) := by decide
theorem test_decode_ldB : decode 0xFA33 = .instr (.ldB 0xA) := by decide
theorem test_decode_ldMemStore : decode 0xF255 = .instr (.ldMemStore 2) := by decide
theorem test_decode_ldMemLoad : decode 0xFF65 = .instr (.ldMemLoad 0xF) := by decide
/-- CF13, CF16, AL25, AL26, KT7, UO1 to UO7. -/
theorem test_decode_unknown :
    decode 0x5121 = .unknown 0x5121 ∧ decode 0x912F = .unknown 0x912F ∧ decode 0x8128 = .unknown 0x8128 ∧
    decode 0x812F = .unknown 0x812F ∧ decode 0xE09F = .unknown 0xE09F ∧ decode 0x0000 = .unknown 0x0000 ∧
    decode 0x0123 = .unknown 0x0123 ∧ decode 0x00E1 = .unknown 0x00E1 ∧ decode 0x01E0 = .unknown 0x01E0 ∧
    decode 0x00FF = .unknown 0x00FF ∧ decode 0xF000 = .unknown 0xF000 ∧ decode 0xFFFF = .unknown 0xFFFF := by decide
theorem test_decode_one_byte : decodeBytes [0x12] = .truncated := by decide
theorem test_decode_table_word : decodeTableWord 16 0xA2F0 = some (.ldI 0x2F0) := by decide
/-- The examples of R90. -/
theorem test_encode : encode (.addReg 3 5) = 0x8354 ∧ encode (.ldI 0x2F0) = 0xA2F0 ∧ encode (.drw 0 1 5) = 0xD015 := by decide

/-! ## Control flow (95_test_vectors.md 2.1) -/

/-- CF1. -/
theorem test_ret : let t := after { State.reset with sp := 1, stack := State.reset.stack.set 0 0x206 } 0x00EE
    t.sp = 0 ∧ t.pc = 0x206 ∧ t.fault = none := by decide
/-- CF2. -/
theorem test_ret_underflow : let t := after State.reset 0x00EE
    t.pc = 0x200 ∧ t.fault = some ⟨.stackUnderflow, 0x200, 0x00EE, none⟩ ∧ t.events = [.fault .stackUnderflow 0x200] := by decide
/-- CF3. -/
theorem test_jp : (after State.reset 0x1ABC).pc = 0xABC := by decide
/-- CF22: an odd pc is fetched like any other. -/
theorem test_jp_odd_pc : (after (State.reset.setPc 0x201) 0x1234).pc = 0x234 := by decide
/-- CF5. -/
theorem test_call : let t := after State.reset 0x2400
    t.stack[0] = 0x202 ∧ t.sp = 1 ∧ t.pc = 0x400 := by decide
/-- CF6. -/
theorem test_call_overflow : let t := after { State.reset with sp := 16, stack := Vector.replicate 16 0x202 } 0x2400
    t.pc = 0x200 ∧ t.sp = 16 ∧ t.fault = some ⟨.stackOverflow, 0x200, 0x2400, none⟩ ∧
      t.events = [.fault .stackOverflow 0x200] := by decide
/-- CF7, CF8. -/
theorem test_seImm : (after (start [(0xA, 0x7B)]) 0x3A7B).pc = 0x204 ∧ (after (start [(0xA, 0x7C)]) 0x3A7B).pc = 0x202 := by decide
/-- CF20: the advance wraps to 0, the skip goes to 2. -/
theorem test_seImm_wraps : (after (State.reset.setPc 0xFFFE) 0x3000).pc = 0x0002 := by decide
/-- CF9, CF10. -/
theorem test_sneImm : (after (start [(0xA, 0x7B)]) 0x4A7B).pc = 0x202 ∧ (after State.reset 0x4A7B).pc = 0x204 := by decide
/-- CF11, CF12. -/
theorem test_seReg : (after (start [(1, 9), (2, 9)]) 0x5120).pc = 0x204 ∧ (after (start [(1, 9), (2, 8)]) 0x5120).pc = 0x202 := by decide
/-- CF14, CF15. -/
theorem test_sneReg : (after (start [(1, 9), (2, 8)]) 0x9120).pc = 0x204 ∧ (after (start [(1, 9), (2, 9)]) 0x9120).pc = 0x202 := by decide
/-- CF19. -/
theorem test_jpV0 : (after (start [(0, 0xFF)]) 0xBFFF).pc = 0x10FE := by decide

/-! ## Arithmetic, logic, random (2.2, W2 to W4) -/

/-- W2b: VF is an ordinary register here. -/
theorem test_ldImm : (after (start [(VF, 1)]) 0x6F00).reg VF = 0 ∧ (after State.reset 0x6A42).reg 0xA = 0x42 := by decide
/-- AL1: no flag. -/
theorem test_addImm : let t := after (start [(0xA, 0x01), (VF, 0x55)]) 0x7AFF
    t.reg 0xA = 0 ∧ t.reg VF = 0x55 := by decide
/-- AL3. -/
theorem test_ldReg : (after (start [(2, 0x33)]) 0x8120).reg 1 = 0x33 := by decide
/-- AL4. -/
theorem test_orReg : let t := after (start [(1, 0xF0), (2, 0x0F), (VF, 7)]) 0x8121
    t.reg 1 = 0xFF ∧ t.reg VF = 7 := by decide
/-- AL5. -/
theorem test_andReg : let t := after (start [(1, 0xF0), (2, 0x3C), (VF, 7)]) 0x8122
    t.reg 1 = 0x30 ∧ t.reg VF = 7 := by decide
/-- AL6. -/
theorem test_xorReg : let t := after (start [(1, 0xFF), (2, 0x0F), (VF, 7)]) 0x8123
    t.reg 1 = 0xF0 ∧ t.reg VF = 7 := by decide
/-- W3a, W3b. -/
theorem test_addReg : let t := after (start [(1, 0xFF), (2, 1)]) 0x8124; let u := after (start [(1, 0x7F), (2, 0x80)]) 0x8124
    t.reg 1 = 0 ∧ t.reg VF = 1 ∧ u.reg 1 = 0xFF ∧ u.reg VF = 0 := by decide
/-- AL8: x = F, the sum overwrites the flag. -/
theorem test_addReg_into_vf : (after (start [(VF, 1), (0xE, 1)]) 0x8FE4).reg VF = 2 := by decide
/-- W4a, W4b: the comparison is strict. -/
theorem test_sub : let t := after (start [(1, 5), (2, 3)]) 0x8125; let u := after (start [(1, 3), (2, 3)]) 0x8125
    t.reg 1 = 2 ∧ t.reg VF = 1 ∧ u.reg 1 = 0 ∧ u.reg VF = 0 := by decide
/-- AL10: y = F, Vy is read before the flag is written. -/
theorem test_sub_vf : let t := after (start [(1, 5), (VF, 3)]) 0x81F5
    t.reg 1 = 2 ∧ t.reg VF = 1 := by decide
/-- AL14: Vy is ignored. -/
theorem test_shr : let t := after (start [(1, 4), (2, 0xFF)]) 0x8126
    t.reg 1 = 2 ∧ t.reg VF = 0 := by decide
/-- AL15: x = F. -/
theorem test_shr_vf : (after (start [(VF, 3)]) 0x8F06).reg VF = 1 := by decide
/-- AL18. -/
theorem test_subn : let t := after (start [(1, 5), (2, 3)]) 0x8127
    t.reg 1 = 0xFE ∧ t.reg VF = 0 := by decide
/-- AL20: y = F. -/
theorem test_subn_vf : let t := after (start [(1, 3), (VF, 5)]) 0x81F7
    t.reg 1 = 2 ∧ t.reg VF = 1 := by decide
/-- AL21. -/
theorem test_shl : let t := after (start [(1, 0x81)]) 0x810E
    t.reg 1 = 2 ∧ t.reg VF = 1 := by decide
/-- AL23: x = F. -/
theorem test_shl_vf : (after (start [(VF, 0x81)]) 0x8F0E).reg VF = 2 := by decide
/-- AL27. -/
theorem test_rnd : let t := after { State.reset with rng := ⟨[0xAB, 0xCD], 0⟩ } 0xC30F
    t.reg 3 = 0x0B ∧ t.rng.supplied = [0xCD] := by decide
/-- AL28: the draw is consumed even where nothing of it is kept; the byte itself is a free value. -/
theorem test_rnd_free : (after State.reset 0xC300).rng.drawn = 1 := by decide

/-! ## Index register and memory (2.3) -/

/-- IM1. -/
theorem test_ldI : (after State.reset 0xA123).I = 0x123 := by decide
/-- IM3: a 16-bit wrap. -/
theorem test_addI_wraps : (after ((start [(0, 1)]).setI 0xFFFF) 0xF01E).I = 0 := by decide
/-- IM4: no flag. -/
theorem test_addI : let t := after ((start [(VF, 1)]).setI 0xFFF) 0xFF1E
    t.I = 0x1000 ∧ t.reg VF = 1 := by decide
/-- IM5: the alternative flag, and the case below it. -/
theorem test_addI_flag : (addIUnder true VF ((start [(VF, 1)]).setI 0xFFF)).reg VF = 1 ∧
    (addIUnder true 0 ((start [(0, 1), (VF, 1)]).setI 0xFFE)).reg VF = 0 := by decide
/-- IM7, IM8: no masking. -/
theorem test_ldF : (after (start [(0, 0x10)]) 0xF029).I = 0x50 ∧ (after (start [(0, 0xFF)]) 0xF029).I = 0x4FB := by decide
/-- IM13. -/
theorem test_ldB : let t := after ((start [(0, 0x7B)]).setI 0x300) 0xF033
    t.readBlock 0x300 3 = [1, 2, 3] ∧ t.I = 0x300 := by decide
/-- IM14: the digits wrap into the font. -/
theorem test_ldB_wraps : let t := after ((start [(0, 0xFF)]).setI 0xFFF) 0xF033
    t.memRead 0xFFF = 2 ∧ t.memRead 0 = 5 ∧ t.memRead 1 = 5 ∧ t.memRead 2 = 0x90 := by decide
/-- IM15: `memory[0304]` unchanged. -/
theorem test_ldMemStore : let t := after ((start [(0, 1), (1, 2), (2, 3), (3, 4), (4, 5)]).setI 0x300) 0xF355
    t.readBlock 0x300 5 = [1, 2, 3, 4, 0] ∧ t.I = 0x300 := by decide
/-- IM19: the address is reduced. -/
theorem test_ldMemStore_reduces : (after ((start [(0, 0x5A)]).setI 0x1000) 0xF055).memRead 0 = 0x5A := by decide
/-- IM18: V3 unchanged. -/
theorem test_ldMemLoad : let t := after (((start [(3, 0x77)]).setI 0x300).storeBlock 0x300 [7, 8, 9, 10]) 0xF265
    t.reg 0 = 7 ∧ t.reg 1 = 8 ∧ t.reg 2 = 9 ∧ t.reg 3 = 0x77 ∧ t.I = 0x300 := by decide
/-- IM17: x = F loads VF. -/
theorem test_ldMemLoad_vf : (after (((start [(VF, 0x33)]).setI 0x300).memWrite 0x30F 0x1F) 0xFF65).reg VF = 0x1F := by decide

/-! ## Display (2.4) -/

/-- DS1. -/
theorem test_cls : let t := after { State.reset with display := Display.clear.toggle 63 31 } 0x00E0
    pixels t 31 = [] ∧ t.redraw = true := by decide
/-- DS3: columns wrap. -/
theorem test_drw_wraps : let t := after (sprite [(0, 62), (1, 31)] 0xFF) 0xD011
    pixels t 31 = [0, 1, 2, 3, 4, 5, 62, 63] ∧ t.reg VF = 0 ∧ t.redraw = true := by decide
/-- DS6: a pixel is unset. -/
theorem test_drw_collides : let t := after { sprite [] 0x80 with display := (Display.clear.toggle 0 0).toggle 1 0 } 0xD001
    pixels t 0 = [1] ∧ t.reg VF = 1 := by decide

/-! ## Keys and timers (2.5) -/

/-- KT1, KT2. -/
theorem test_skp : (after { start [(0, 7)] with keypad := keysDown [7] } 0xE09E).pc = 0x204 ∧
    (after (start [(0, 7)]) 0xE09E).pc = 0x202 := by decide
/-- KT5. -/
theorem test_skp_faults : let t := after (start [(0, 0x10)]) 0xE09E
    t.pc = 0x200 ∧ t.fault = some ⟨.keyIndex, 0x200, 0xE09E, some 0x10⟩ ∧ t.events = [.fault .keyIndex 0x200] := by decide
/-- KT3, KT4. -/
theorem test_sknp : (after (start [(0, 7)]) 0xE0A1).pc = 0x204 ∧
    (after { start [(0, 7)] with keypad := keysDown [7] } 0xE0A1).pc = 0x202 := by decide
/-- KT6. -/
theorem test_sknp_faults : (after (start [(VF, 0xFF)]) 0xEFA1).fault = some ⟨.keyIndex, 0x200, 0xEFA1, some 0xFF⟩ := by decide
/-- KT9: read before the tick. -/
theorem test_ldVxDt : let t := after (State.reset.setDT 0x2A) 0xF307 true
    t.reg 3 = 0x2A ∧ t.DT = 0x29 := by decide
/-- KT10: the lowest key. -/
theorem test_ldVxK : let t := after { State.reset with keypad := keysDown [9, 3] } 0xFF0A
    t.reg VF = 3 ∧ t.pc = 0x202 := by decide
/-- KT11: timers run while waiting. -/
theorem test_ldVxK_waits : let t := after (State.reset.setDT 3) 0xF10A true
    t.pc = 0x200 ∧ t.DT = 2 := by decide
/-- KT12, KT13. -/
theorem test_ldDt : (after (start [(0, 5)]) 0xF015).DT = 5 ∧ (after (start [(0, 5)]) 0xF015 true).DT = 4 := by decide
/-- KT14. -/
theorem test_ldSt : let t := after (start [(0, 1)]) 0xF018 true
    t.ST = 0 ∧ t.events = [.toneCue] := by decide
/-- KT15: no event without a tick's decrement. -/
theorem test_ldSt_zero : let t := after (State.reset.setST 5) 0xF018
    t.ST = 0 ∧ t.events = [] := by decide
/-- KT16, KT17. -/
theorem test_tick : let t := (State.reset.setST 2).tickOp
    t.ST = 1 ∧ t.events = [] ∧ t.tickOp.ST = 0 ∧ t.tickOp.events = [.toneCue] ∧ t.tickOp.tickOp.events = [] := by decide

/-! ## The cycle, faults, load (2.6, W9) -/

/-- UO1, the example of R106. -/
theorem test_unknown : let t := after State.reset 0x0000
    t.pc = 0x202 ∧ t.events = [.unknownOpcode 0x0000 0x200] ∧ t.fault = none := by decide
/-- FS2: in the fault state only the timers run; FS3: `init` leaves it. -/
theorem test_fault_state : let f := (after State.reset 0x00EE).setDT 2
    step { f with inputs := [{ HostInput.idle with timerTick := true }] } = .next { f with DT := 1, events := [] } ∧
      f.init = State.reset := by
  refine ⟨?_, ?_⟩ <;> rfl
/-- The table of R220. -/
theorem test_fault_codes : [FaultKind.stackOverflow, .stackUnderflow, .keyIndex, .addressRange].map FaultKind.code = [1, 2, 3, 4] := by decide
/-- W9d, and a load of one word. -/
theorem test_load : State.reset.load [] = (State.reset, .ok) ∧
    ((State.reset.load [0xA2, 0xF0]).1.memRead 0x200, (State.reset.load [0xA2, 0xF0]).1.fetchWord) = (0xA2, 0xA2F0) := by decide
/-- W9a. -/
theorem test_load_too_large : State.reset.load (List.replicate 3585 0) = (State.reset, .romTooLarge) :=
  if_neg (by rw [test_wf_rom_too_large]; decide)
/-- A fetch across the end of memory, under the alternative policy (R52): `pc` = 0xFFF, and the first address out is 4096. -/
theorem test_fetch_out_of_range : ∃ t, (State.reset.setPc 0xFFF).cycleUnder .fault = .next t ∧
    (t.fault.map (fun r => (r.kind, r.addr, r.info))) = some (.addressRange, 0xFFF, some 4096) := ⟨_, rfl, by decide⟩
/-- The word `withFetchWord` places is the one `step` runs. -/
theorem test_withFetchWord : step (State.reset.withFetchWord 16 0x6A42) =
    .next (((State.reset.placeWord 0x6A42).advance).setReg 0xA 0x42) := by rfl
/-- The host's next input acts before the step, and its tick after it (R108, R109). -/
theorem test_inputs :
    step { placed 0xF10A with inputs := [⟨some (keysDown [0xC]), true, true⟩], redraw := true, DT := 1 } =
      .next { (placed 0xF10A).advance.setReg 1 0xC with keypad := keysDown [0xC], DT := 0 } := by rfl

/-! ## Witnesses: states and operands that meet the hypotheses of the statements, clause by clause -/

/-- LoadCopiesTheProgramOrNothing, FailedLoadStepsThroughZeros: the largest image, and one byte more. -/
theorem witness_load : (List.replicate 3584 (0xAA : Byte)).length ≤ 4096 - 0x200 ∧ 4096 - 0x200 < (List.replicate 3585 (0 : Byte)).length ∧
    ¬ (0x200 ≤ 0x1FF ∧ 0x1FF < 0x200 + 3584) ∧ 1791 < 1792 := by
  rw [List.length_replicate, List.length_replicate]; decide
/-- DecodeOfEncode: every operand at its largest. EncodeOfDecode. -/
theorem witness_round_trip : WellFormed (.drw 0xF 0xF 15) = true ∧ decode 0xFF65 = .instr (.ldMemLoad 0xF) := by decide
/-- DecodeFollowsTheOpcodeMap, OpcodePatternsAreDisjoint, and every mask of the clauses on encodings. -/
theorem witness_selects : (⟨"LD_mem_load", 0xF065, 0xF0FF⟩ : OpcodeRow) ∈ opcodeMap ∧ (⟨"LD_mem_load", 0xF065, 0xF0FF⟩ : OpcodeRow).selects 0xFF65 ∧
    (0x1ABC &&& 0xF000 : Word) = 0x1000 ∧ (0x5FE0 &&& 0xF00F : Word) = 0x5000 ∧ (0xEF9E &&& 0xF0FF : Word) = 0xE09E ∧
    (0x00E0 &&& 0xFFFF : Word) = 0x00E0 := ⟨by decide, rfl, rfl, rfl, rfl, rfl⟩
/-- UnknownSpaceIsExact, UnknownOpcodeIsAReportedNoOp. -/
theorem witness_unknown : (placed 0x5121).Running ∧ (placed 0x5121).fetchWord = 0x5121 ∧ UnknownSpace 0x5121 ∧
    decode (placed 0x5121).fetchWord = .unknown (placed 0x5121).fetchWord := ⟨rfl, by decide, .inr (.inl (by decide)), by decide⟩
/-- FetchIsBigEndian, StepRunsTheDecodedInstruction. -/
theorem witness_step : (placed 0xA2F0).Running ∧ decode (placed 0xA2F0).fetchWord = .instr (.ldI 0x2F0) := ⟨rfl, by decide⟩
/-- TickComesAfterTheInstruction: each clause. -/
theorem witness_tick_after : (placed 0xFF15).Running ∧ decode (placed 0xFF15).fetchWord = .instr (.ldDt 0xF) ∧
    (placed 0xFF18).Running ∧ decode (placed 0xFF18).fetchWord = .instr (.ldSt 0xF) ∧
    (placed 0xFF07).Running ∧ decode (placed 0xFF07).fetchWord = .instr (.ldVxDt 0xF) := ⟨rfl, by decide, rfl, by decide, rfl, by decide⟩
/-- EventsOfAStep, KeypadIsTheHosts, InstructionsWriteOnlyTheirParts, RedrawIsSetByClearAndDraw: an answer, with `redraw` changed. -/
theorem witness_answers : (∃ t, step (placed 0x00E0) = .next t) ∧ (∃ t, exec .cls State.reset = .next t ∧ t.redraw ≠ State.reset.redraw) ∧
    (∃ t, exec .cls { State.reset with redraw := true } = .next t) ∧ ¬ writesReg .cls 0 := ⟨⟨_, rfl⟩, ⟨_, rfl, by decide⟩, ⟨_, rfl⟩, id⟩
/-- JumpsSetPc: a jump to itself. -/
theorem witness_self_jump : (placed 0x1200).Running ∧ decode (placed 0x1200).fetchWord = .instr (.jp 0x200) ∧
    (placed 0x1200).pc.toNat = (0x200 : Addr).toNat := ⟨rfl, by decide, by decide⟩
/-- CallPushesTheReturnAddress at the last free slot, ReturnPopsTheReturnAddress at both ends of the stack. -/
theorem witness_stack : ({ State.reset with sp := 15 } : State).sp.val < 16 ∧
    ({ State.reset with sp := 16 } : State).sp.val = (15 : Fin 16).val + 1 ∧ ({ State.reset with sp := 1 } : State).sp.val = (0 : Fin 16).val + 1 := by decide

/-- A call at 0x200 of a subroutine of two words at 0x300. -/
def calling : State := ((State.reset.storeBlock 0x200 [0x23, 0x00]).storeBlock 0x300 [0x60, 0x01, 0x00, 0xEE])
/-- In the subroutine. -/
def called : State := { calling with pc := 0x300, sp := 1, stack := calling.stack.set 0 0x202 }
/-- At the return. -/
def returning : State := { called.setReg 0 1 with pc := 0x302 }

/-- CallThenReturn: one instruction between the call and its return. -/
theorem witness_call_then_return : calling.Running ∧ decode calling.fetchWord = .instr (.call 0x300) ∧ calling.sp.val < 16 ∧
    step calling = .next called ∧ StepsWhile (fun v => calling.sp.val < v.sp.val) called returning ∧
    returning.Running ∧ decode returning.fetchWord = .instr .ret ∧ returning.sp.val = calling.sp.val + 1 :=
  ⟨rfl, by decide, by decide, rfl, .more (by decide) (show step called = .next returning from rfl) (.here (by decide)), rfl, by decide, by decide⟩
/-- StepKeepsLiveStackSlots: a step that pushes, and one with a live slot. -/
theorem witness_stack_step : step calling = .next called ∧ called.stack[(0 : Fin 16)] ≠ calling.stack[(0 : Fin 16)] ∧
    step called = .next returning ∧ (0 : Fin 16).val < called.sp.val := ⟨rfl, by decide, rfl, by decide⟩
/-- SkipsOnRegisterValues: words of families 5 and 9 with a low nibble. -/
theorem witness_skips : (fieldOp 0x5121 = 5 ∧ fieldN 0x5121 ≠ 0) ∧ (fieldOp 0x912F = 9 ∧ fieldN 0x912F ≠ 0) := by decide
/-- A destination that is not VF, and a register that is neither: LoadAndAddImmediate, LogicIsBitwise, AddAndSubtractLaws,
FlagArithmetic, AddToIndexWithFlag. -/
theorem witness_registers : (0xE : Reg) ≠ VF ∧ (0 : Reg) ≠ 0xE ∧ (0 : Reg) ≠ VF ∧ (placed 0x6FFF).Running ∧
    decode (placed 0x6FFF).fetchWord = .instr (.ldImm 0xF 0xFF) := ⟨by decide, by decide, by decide, rfl, by decide⟩
/-- RandomByteIsMasked: with and without a supplied byte. -/
theorem witness_random : ({ State.reset with rng := ⟨[0xAB], 0⟩ } : State).rng.supplied = 0xAB :: [] ∧ State.reset.rng.supplied = [] := ⟨rfl, rfl⟩
/-- BcdStoresTheDigits, BlockStore: an address next to the stored bytes, across the end of memory. -/
theorem witness_outside : (∀ i < 3, 2 % 4096 ≠ ((State.reset.setI 0xFFF).I.toNat + i) % 4096) ∧
    (∀ i ≤ (0xF : Reg).val, 15 % 4096 ≠ ((State.reset.setI 0xFFF).I.toNat + i) % 4096) ∧ (0xF : Reg) ≤ 0xF := by decide
/-- StoreThenLoadRestores: the state right after the store. -/
theorem witness_store_load : ∃ t, exec (.ldMemStore 0xF) (State.reset.setI 0xFFF) = .next t ∧ t.I = t.I ∧
    (∀ i ≤ (0xF : Reg).val, t.memRead (t.I.toNat + i) = t.memRead (t.I.toNat + i)) := ⟨_, rfl, rfl, fun _ _ => rfl⟩
/-- FetchSeesStores: a store to the high and to the low byte of the next word. -/
theorem witness_fetch_sees : (0 : Reg) ≤ 1 ∧ (1 : Reg) ≤ 1 ∧ ∃ t, exec (.ldMemStore 1) (State.reset.setI 0x1200) = .next t ∧
    t.pc.toNat % 4096 = ((State.reset.setI 0x1200).I.toNat + (0 : Reg).val) % 4096 ∧
    (t.pc.toNat + 1) % 4096 = ((State.reset.setI 0x1200).I.toNat + (1 : Reg).val) % 4096 := ⟨by decide, by decide, _, rfl, by decide, by decide⟩
/-- FetchSeesStores: the last digit of Fx33 as the high byte of the next word, the first as its low byte. -/
theorem witness_fetch_sees_digits : (∃ t, exec (.ldB 0) ((start [(0, 0xFF)]).setI 0x11FE) = .next t ∧
      t.pc.toNat % 4096 = ((start [(0, 0xFF)]).setI 0x11FE).I.toNat % 4096 + 2) ∧
    (∃ t, exec (.ldB 0) ((start [(0, 0xFF)]).setI 0x201) = .next t ∧
      (t.pc.toNat + 1) % 4096 = (((start [(0, 0xFF)]).setI 0x201).I.toNat + 0) % 4096) ∧
    5 = ((start [(0, 0xFF)]).reg 0).toNat % 10 ∧ 2 = ((start [(0, 0xFF)]).reg 0).toNat / 100 :=
  ⟨⟨_, rfl, by decide⟩, ⟨_, rfl, by decide⟩, by decide, by decide⟩
/-- OutOfRangeFaultsUnderTheAlternative: both sides of the bound. -/
theorem witness_bound : (State.reset.setI 0xFF0).I.toNat + (0xF : Reg).val < 4096 ∧ 4096 ≤ (State.reset.setI 0xFF1).I.toNat + (0xF : Reg).val ∧
    (State.reset.setPc 0xFFF).Running ∧ 4095 ≤ (State.reset.setPc 0xFFF).pc.toNat := ⟨by decide, by decide, rfl, by decide⟩
/-- DrawFlipsTheAddressedPixels: a pixel addressed across the corner and one not, with and without a collision. -/
theorem witness_draw : (15 : Nat) < 16 ∧ SpriteAddresses (sprite [(0, 63), (1, 31)] 0xFF) 0 1 1 6 31 ∧
    ¬ SpriteAddresses (sprite [(0, 63), (1, 31)] 0xFF) 0 1 1 7 31 ∧
    (∃ (col : Fin 64) (row : Fin 32), SpriteAddresses (sprite [] 0x80) 0 1 1 col row ∧ (Display.clear.toggle 0 0).get col row = true) ∧
    ¬ ∃ (col : Fin 64) (row : Fin 32), SpriteAddresses (sprite [] 0x80) 0 1 1 col row ∧ Display.clear.get col row = true :=
  ⟨by decide, ⟨0, by decide, 7, by decide, by decide, by decide, by decide⟩, fun ⟨_, _, c, hc, _, e, _⟩ => by
      have hr : ((sprite [(0, 63), (1, 31)] 0xFF).reg 0).toNat = 63 := by decide
      have e7 : 7 = (63 % 64 + c) % 64 := hr ▸ e
      omega,
    ⟨0, 0, ⟨0, by decide, 0, by decide, by decide, by decide, by decide⟩, by decide⟩, by simp⟩
/-- DrawingTwiceRestoresTheDisplay: the state right after the first draw. -/
theorem witness_draw_twice : (0xE : Reg) ≠ VF ∧ ∃ t, exec (.drw 0xE 0 15) (sprite [] 0x80) = .next t ∧ t.reg 0xE = t.reg 0xE ∧
    ∀ r < 15, t.memRead (t.I.toNat + r) = t.memRead (t.I.toNat + r) := ⟨by decide, _, rfl, rfl, fun _ _ => rfl⟩
/-- GlyphOfADigit: the last digit. -/
theorem witness_glyph : ((start [(0, 0xF)]).reg 0).toNat = 15 ∧ (∀ a < 80, (start [(0, 0xF)]).memRead a = Config.font.getD a 0) ∧
    ∃ t, exec (.ldF 0) (start [(0, 0xF)]) = .next t ∧ t.reg 1 = 0 ∧ t.reg 2 = 0 :=
  ⟨by decide, fun a h => by simp [start, State.memRead, State.reset, Nat.mod_eq_of_lt (show a < 4096 by omega)]; rfl, _, rfl, by decide, by decide⟩
/-- SkipsOnKeys: the highest key. KeyWaitTakesTheLowestKey: two keys, and none. -/
theorem witness_keys : ((start [(0, 0xF)]).reg 0).toNat = (0xF : Key).val ∧
    ((keysDown [9, 3])[(3 : Key)] = true ∧ ∀ j : Key, j < 3 → (keysDown [9, 3])[j] = false) ∧
    (∀ j : Key, State.reset.keypad[j] = false) := by decide
/-- KeyWaitSpins: a host that writes no keys and one that writes all of them released. -/
theorem witness_spins : (placed 0xF10A).Running ∧ decode (placed 0xF10A).fetchWord = .instr (.ldVxK 1) ∧
    (∀ j : Key, (placed 0xF10A).keypad[j] = false) ∧
    ∀ h ∈ [{ HostInput.idle with timerTick := true }, ⟨some (keysDown []), true, false⟩], ∀ keys : Keypad, h.keys = some keys →
      ∀ j : Key, keys[j] = false := by
  refine ⟨rfl, by decide, by decide, fun h hh keys hk => ?_⟩
  rcases List.mem_cons.mp hh with rfl | hh
  · cases hk
  · obtain rfl := List.mem_singleton.mp hh
    cases hk
    decide
/-- KeyWaitEnds: the host presses the highest key before the step. -/
theorem witness_key_wait_ends : let s : State := { placed 0xF10A with inputs := [⟨some (keysDown [0xF]), false, false⟩] }
    s.Running ∧ decode s.fetchWord = .instr (.ldVxK 1) ∧ s.hostActs.keypad[(0xF : Key)] = true ∧
    ∀ j : Key, j ≠ 0xF → s.hostActs.keypad[j] = false := ⟨rfl, by decide, by decide, by decide⟩
/-- TimerMoves, TickCountsDown: a sound timer about to run out, and others. -/
theorem witness_timers : (start [(0, 1)]).reg 0 = 1 ∧ (State.reset.setST 1).ST.toNat = 1 ∧ (State.reset.setST 2).ST.toNat ≠ 1 ∧
    State.reset.ST.toNat ≠ 1 := by decide
/-- StackFaultsArePrecise: a full stack, an empty one. -/
theorem witness_stack_faults : ({ placed 0x2400 with sp := 16 } : State).Running ∧
    decode ({ placed 0x2400 with sp := 16 } : State).fetchWord = .instr (.call 0x400) ∧ (placed 0x00EE).Running ∧
    decode (placed 0x00EE).fetchWord = .instr .ret ∧ (placed 0x00EE).sp.val = 0 := ⟨rfl, by decide, rfl, by decide, rfl⟩
/-- KeyIndexFaultsArePrecise: the lowest value that is no key, both tests. -/
theorem witness_key_index : let s := start [(0, 0x10)]
    (s.placeWord 0xE09E).Running ∧ decode (s.placeWord 0xE09E).fetchWord = .instr (.skp 0) ∧
    decode (s.placeWord 0xE0A1).fetchWord = .instr (.sknp 0) ∧ 15 < ((s.placeWord 0xE09E).reg 0).toNat := ⟨rfl, by decide, by decide, by decide⟩

/-- A machine that has faulted. -/
def faulted : State := { State.reset with fault := some ⟨.stackUnderflow, 0x200, 0x00EE, none⟩ }

/-- FaultStateIsInert; StepKeepsTheInvariant and HostOperationsKeepTheInvariant in a fault state. -/
theorem witness_fault_state : faulted.fault = some ⟨.stackUnderflow, 0x200, 0x00EE, none⟩ ∧ faulted.Inv ∧ ∃ t, step faulted = .next t :=
  ⟨rfl, ⟨Memory.wf_nil, fun r h => by cases h; exact ⟨rfl, rfl, rfl, rfl⟩⟩, _, rfl⟩

end Sys2Proof.Tests
end

/-!
The statements of spec/10_state.md: what each operation of the state leaves unchanged, what an instruction and a step
write, what no instruction reads, and the state after `init`.
-/

namespace Sys2Proof.Machine

/-! ## What each operation of the state leaves unchanged -/

theorem State.setReg_frame (s : State) (r : Reg) (v : Byte) : KeepsAllBut [.V] s (s.setReg r v) := by
  intro p hp
  cases p <;> simp_all [Part.Same, State.memRead]

theorem State.setI_frame (s : State) (v : Word) : KeepsAllBut [.I] s (s.setI v) := by
  intro p hp
  cases p <;> simp_all [Part.Same, State.memRead, State.reg]

theorem State.setPc_frame (s : State) (v : Word) : KeepsAllBut [.pc] s (s.setPc v) := by
  intro p hp
  cases p <;> simp_all [Part.Same, State.memRead, State.reg]

theorem State.setDT_frame (s : State) (v : Byte) : KeepsAllBut [.DT] s (s.setDT v) := by
  intro p hp
  cases p <;> simp_all [Part.Same, State.memRead, State.reg]

theorem State.setST_frame (s : State) (v : Byte) : KeepsAllBut [.ST] s (s.setST v) := by
  intro p hp
  cases p <;> simp_all [Part.Same, State.memRead, State.reg]

theorem State.setRng_frame (s : State) (r : Rng) : KeepsAllBut [.rng] s (s.setRng r) := by
  intro p hp
  cases p <;> simp_all [Part.Same, State.memRead, State.reg]

theorem State.redrawWith_frame (s : State) (d : Display) : KeepsAllBut [.display, .redraw] s (s.redrawWith d) := by
  intro p hp
  cases p <;> simp_all [Part.Same, State.memRead, State.reg]

theorem State.push_frame (s : State) (v : Word) (room : s.sp.val < 16) : KeepsAllBut [.stack, .sp] s (s.push v room) := by
  intro p hp
  cases p <;> simp_all [Part.Same, State.memRead, State.reg]

theorem State.drop_frame (s : State) : KeepsAllBut [.sp] s s.drop := by
  intro p hp
  cases p <;> simp_all [Part.Same, State.memRead, State.reg]

theorem State.raiseFault_frame (s : State) (kind : FaultKind) (w : Word) (info : Option Nat) :
    KeepsAllBut [.pc, .fault, .events] s (s.raiseFault kind w info) := by
  intro p hp
  cases p <;> simp_all [Part.Same, State.memRead, State.reg]

theorem State.tickIf_frame (s : State) (timerTick : Bool) : KeepsAllBut [.DT, .ST, .events] s (s.tickIf timerTick) := by
  obtain ⟨dt, st, ev, h, -⟩ := s.tickIf_eq timerTick
  rw [h]
  intro p hp
  cases p <;> simp_all [Part.Same, State.memRead, State.reg]

/-! ## The answers of the instructions that branch -/

/-- A call with room pushes the advanced `pc` and jumps (R122). -/
theorem execCall_of_room (nnn : Addr) {s : State} (room : s.sp.val < 16) :
    execCall nnn s = .next ((s.push s.pc room).setPc (addrWord nnn)) := dif_pos room

/-- A call on a full stack faults (R223). -/
theorem execCall_of_full (nnn : Addr) {s : State} (full : ¬ s.sp.val < 16) :
    execCall nnn s = .next (s.raiseFault .stackOverflow (encode (.call nnn)) none) := dif_neg full

/-- A return with a live entry pops it into `pc` (R120). -/
theorem execRet_of_live {s : State} (live : 0 < s.sp.val) :
    execRet s = .next (s.drop.setPc (s.top live)) := dif_pos live

/-- A return on an empty stack faults (R223). -/
theorem execRet_of_empty {s : State} (empty : ¬ 0 < s.sp.val) :
    execRet s = .next (s.raiseFault .stackUnderflow (encode .ret) none) := dif_neg empty

/-- A key wait with no key pressed undoes the advance (R204). -/
theorem execLdVxK_of_none (x : Reg) {s : State} (h : lowestKey s.keypad = none) :
    execLdVxK x s = .next s.retreat := by
  simp only [execLdVxK, h]

/-- A key wait with a key pressed loads the number of the lowest one (R204). -/
theorem execLdVxK_of_some (x : Reg) {s : State} {k : Key} (h : lowestKey s.keypad = some k) :
    execLdVxK x s = .next (s.setReg x (BitVec.ofNat 8 k.val)) := by
  simp only [execLdVxK, h]

/-! ## What an instruction writes -/

/-- From `s` to `t` only these parts have changed, and of the registers only these. -/
structure WritesOnly (parts : List Part) (regs : Reg → Prop) (s t : State) : Prop where
  frame : KeepsAllBut parts s t
  reg : ∀ r : Reg, ¬ regs r → t.reg r = s.reg r

/-- A change that leaves the register file alone writes no register. -/
theorem WritesOnly.of_frame {parts more : List Part} {regs : Reg → Prop} {s t : State} (h : KeepsAllBut parts s t)
    (hV : .V ∉ parts := by simp) (hsub : ∀ p ∈ parts, p ∈ more := by simp [writes]) : WritesOnly more regs s t :=
  ⟨h.mono hsub, fun r _ => h .V hV r⟩

theorem WritesOnly.trans {parts : List Part} {regs : Reg → Prop} {s t u : State} (h1 : WritesOnly parts regs s t)
    (h2 : WritesOnly parts regs t u) : WritesOnly parts regs s u :=
  ⟨h1.frame.trans h2.frame, fun r hr => (h2.reg r hr).trans (h1.reg r hr)⟩

theorem State.setReg_writesOnly {parts : List Part} {regs : Reg → Prop} (s : State) (x : Reg) (v : Byte)
    (hx : regs x) (hV : .V ∈ parts := by simp [writes]) : WritesOnly parts regs s (s.setReg x v) :=
  ⟨(s.setReg_frame x v).mono (by simpa using hV), fun r hr => s.reg_setReg_other x r v (fun e => hr (e ▸ hx))⟩

theorem State.setFlagThenReg_writesOnly (s : State) (b : Bool) (x : Reg) (v : Byte) :
    WritesOnly [.V] (fun r => r = VF ∨ r = x) s (s.setFlagThenReg b x v) :=
  (s.setReg_writesOnly VF _ (.inl rfl)).trans (State.setReg_writesOnly _ x v (.inr rfl))

theorem State.skipIf_writesOnly (s : State) (taken : Bool) : WritesOnly [.pc] (fun _ => False) s (s.skipIf taken) :=
  s.skipIf_eq taken ▸ .of_frame (s.setPc_frame _)

theorem State.testKey_writesOnly (s : State) (x : Reg) (level : Bool) (w : Word) :
    WritesOnly [.pc, .fault, .events] (fun _ => False) s (s.testKey x level w) := by
  rcases s.testKey_cases x level w with ⟨k, -, h⟩ | ⟨-, h⟩ <;> rw [h]
  · exact .of_frame (s.skipIf_writesOnly _).frame
  · exact .of_frame (s.raiseFault_frame _ _ _)

/-- A block load from V0 writes no register past the block (R179). -/
theorem State.loadRegs_writesOnly (s : State) (x : Reg) (bytes : List Byte) (hlen : bytes.length = x.val + 1) :
    WritesOnly [.V] (fun r => r ≤ x) s (s.loadRegs 0 bytes) := by
  refine ⟨s.loadRegs_frame 0 bytes, fun r hr => ?_⟩
  have past : ¬ (0 ≤ r.val ∧ r.val - 0 < bytes.length) := by
    rw [Fin.le_def] at hr
    omega
  rw [State.reg_loadRegs, dif_neg past]

theorem execCall_writesOnly (nnn : Addr) (s : State) :
    ∃ t, execCall nnn s = .next t ∧ WritesOnly [.pc, .stack, .sp, .fault, .events] (fun _ => False) s t := by
  by_cases room : s.sp.val < 16
  · exact ⟨_, execCall_of_room nnn room, .trans (.of_frame (s.push_frame _ room)) (.of_frame (State.setPc_frame _ _))⟩
  · exact ⟨_, execCall_of_full nnn room, .of_frame (s.raiseFault_frame _ _ _)⟩

theorem execRet_writesOnly (s : State) :
    ∃ t, execRet s = .next t ∧ WritesOnly [.pc, .sp, .fault, .events] (fun _ => False) s t := by
  by_cases live : 0 < s.sp.val
  · exact ⟨_, execRet_of_live live, .trans (.of_frame s.drop_frame) (.of_frame (State.setPc_frame _ _))⟩
  · exact ⟨_, execRet_of_empty live, .of_frame (s.raiseFault_frame _ _ _)⟩

theorem execLdVxK_writesOnly (x : Reg) (s : State) :
    ∃ t, execLdVxK x s = .next t ∧ WritesOnly [.V, .pc] (fun r => r = x) s t := by
  cases key : lowestKey s.keypad with
  | none => exact ⟨_, execLdVxK_of_none x key, .of_frame (s.setPc_frame _)⟩
  | some k => exact ⟨_, execLdVxK_of_some x key, s.setReg_writesOnly x _ rfl⟩

/-- Every instruction answers a next state, and that state differs from the one it began in only where the spec's tables
say the instruction writes (R20, R24, R110). -/
theorem exec_writesOnly (i : Instr) (s : State) : ∃ t, exec i s = .next t ∧ WritesOnly (writes i) (writesReg i) s t := by
  cases i with
  | cls => exact ⟨_, rfl, .of_frame (s.redrawWith_frame _)⟩
  | ret => exact execRet_writesOnly s
  | call nnn => exact execCall_writesOnly nnn s
  | jp nnn | jpV0 nnn => exact ⟨_, rfl, .of_frame (s.setPc_frame _)⟩
  | seImm x kk | sneImm x kk | seReg x y | sneReg x y => exact ⟨_, rfl, s.skipIf_writesOnly _⟩
  | ldImm x kk | addImm x kk | ldReg x y | orReg x y | andReg x y | xorReg x y | ldVxDt x =>
    exact ⟨_, rfl, s.setReg_writesOnly x _ rfl⟩
  | addReg x y | sub x y | shr x y | subn x y | shl x y => exact ⟨_, rfl, s.setFlagThenReg_writesOnly _ x _⟩
  | rnd x kk => exact ⟨_, rfl, .trans (.of_frame (s.setRng_frame _)) (State.setReg_writesOnly _ x _ rfl)⟩
  | drw x y n => exact ⟨_, rfl, .trans (.of_frame (s.redrawWith_frame _)) (State.setReg_writesOnly _ VF _ rfl)⟩
  | skp x | sknp x => exact ⟨_, rfl, s.testKey_writesOnly x _ _⟩
  | ldVxK x => exact execLdVxK_writesOnly x s
  | ldDt x => exact ⟨_, rfl, .of_frame (s.setDT_frame _)⟩
  | ldSt x => exact ⟨_, rfl, .of_frame (s.setST_frame _)⟩
  | ldI nnn | addI x | ldF x => exact ⟨_, rfl, .of_frame (s.setI_frame _)⟩
  | ldB x | ldMemStore x => exact ⟨_, rfl, .of_frame (s.storeBlock_frame _ _)⟩
  | ldMemLoad x => exact ⟨_, rfl, s.loadRegs_writesOnly x _ (s.readBlock_length _ _)⟩

/-- The answer of an instruction, whichever it is, differs only where the tables say. -/
theorem writesOnly_of_exec {i : Instr} {s t : State} (h : exec i s = .next t) :
    WritesOnly (writes i) (writesReg i) s t := by
  obtain ⟨u, hu, hw⟩ := exec_writesOnly i s
  rw [h] at hu
  exact Host.Outcome.next.inj hu ▸ hw

/-- Settles O50, by the operations each instruction is made of. -/
theorem instructionsWriteOnlyTheirParts : Obligations.InstructionsWriteOnlyTheirParts := by
  intro i s t h
  obtain ⟨frame, reg⟩ := writesOnly_of_exec h
  exact ⟨frame, reg⟩

/-! ## The stack over a step (R27, R28, R37) -/

/-- From `s` to `t` the stack has moved by at most one entry, and only a push of `v` has changed a slot. -/
def StackMoves (v : Word) (s t : State) : Prop :=
  t.sp.val ≤ s.sp.val + 1 ∧ s.sp.val ≤ t.sp.val + 1 ∧
  (∀ j : Fin 16, j.val < s.sp.val → t.stack[j] = s.stack[j]) ∧
  ∀ j : Fin 16, t.stack[j] ≠ s.stack[j] → j.val = s.sp.val ∧ t.sp.val = s.sp.val + 1 ∧ t.stack[j] = v

/-- Where every slot is as before, it is enough that `sp` moves by at most one. -/
theorem StackMoves.of_same_stack {v : Word} {s t : State} (up : t.sp.val ≤ s.sp.val + 1) (down : s.sp.val ≤ t.sp.val + 1)
    (same : ∀ j : Fin 16, t.stack[j] = s.stack[j]) : StackMoves v s t :=
  ⟨up, down, fun j _ => same j, fun j ne => absurd (same j) ne⟩

/-- A change of other parts does not move the stack. -/
theorem StackMoves.of_frame {parts : List Part} {v : Word} {s t : State} (h : KeepsAllBut parts s t)
    (hstack : .stack ∉ parts := by simp [writes]) (hsp : .sp ∉ parts := by simp [writes]) : StackMoves v s t := by
  have sp : t.sp = s.sp := h .sp hsp
  exact .of_same_stack (by omega) (by omega) (h .stack hstack)

/-- A pop moves `sp` and keeps the slot (R37). -/
theorem State.drop_stackMoves (v : Word) (s : State) : StackMoves v s s.drop :=
  .of_same_stack (by simp; omega) (by simp; omega) (fun _ => rfl)

/-- A push writes the slot at `sp`. -/
theorem State.push_stackMoves (s : State) (v : Word) (room : s.sp.val < 16) : StackMoves v s (s.push v room) := by
  have other : ∀ j : Fin 16, j.val ≠ s.sp.val → (s.push v room).stack[j] = s.stack[j] := fun j ne => by
    simp [ne.symm]
  refine ⟨le_refl _, by simp; omega, fun j lt => other j (by omega), fun j ne => ?_⟩
  have here : j.val = s.sp.val := by
    by_contra e
    exact ne (other j e)
  exact ⟨here, rfl, by simp [here]⟩

/-- Over an instruction only a call changes a slot, and what it pushes is the advanced `pc` (R122). -/
theorem stackMoves_of_exec {i : Instr} {s t : State} (h : exec i s = .next t) : StackMoves s.pc s t := by
  have frame := (writesOnly_of_exec h).frame
  cases i with
  | call nnn =>
    by_cases room : s.sp.val < 16
    · cases h.symm.trans (execCall_of_room nnn room)
      exact s.push_stackMoves s.pc room
    · cases h.symm.trans (execCall_of_full nnn room)
      exact .of_frame (s.raiseFault_frame _ _ _)
  | ret =>
    by_cases live : 0 < s.sp.val
    · cases h.symm.trans (execRet_of_live live)
      exact s.drop_stackMoves s.pc
    · cases h.symm.trans (execRet_of_empty live)
      exact .of_frame (s.raiseFault_frame _ _ _)
  | _ => exact .of_frame frame

/-- Over the whole of `exec` a push is of the address of the word after the one fetched. -/
theorem State.stackMoves_of_cycle {s t : State} (h : s.cycle = .next t) : StackMoves (s.pc + 2) s t := by
  rcases State.cycle_cases h with rfl | ⟨-, i, -, hi⟩ | ⟨-, -, rfl⟩
  · exact .of_frame (.refl [] _)
  · exact stackMoves_of_exec hi
  · exact .of_same_stack (Nat.le_succ _) (Nat.le_succ _) (fun _ => rfl)

/-- Settles O56: neither the host's accesses nor the tick touch the stack, so a step moves it as `exec` does. -/
theorem stepKeepsLiveStackSlots : Obligations.StepKeepsLiveStackSlots := by
  intro s t h
  obtain ⟨u, hu, rfl⟩ := step_cases h
  have moves : StackMoves (s.pc + 2) s u := State.stackMoves_of_cycle (s := s.hostActs.begin) hu
  obtain ⟨dt, st, ev, htick, -⟩ := u.tickIf_eq s.nextInput.timerTick
  rw [htick]
  exact moves

/-! ## The keypad (R31) -/

theorem keypad_of_exec {i : Instr} {s t : State} (h : exec i s = .next t) (k : Key) : t.keypad[k] = s.keypad[k] := by
  have unwritten : .keypad ∉ writes i := by cases i <;> simp [writes]
  exact (writesOnly_of_exec h).frame .keypad unwritten k

theorem State.keypad_of_cycle {s t : State} (h : s.cycle = .next t) (k : Key) : t.keypad[k] = s.keypad[k] := by
  rcases State.cycle_cases h with rfl | ⟨-, i, -, hi⟩ | ⟨-, -, rfl⟩
  · rfl
  · exact keypad_of_exec hi k
  · rfl

/-- Settles O51: `keypad` is in no list of written parts, and the tick leaves it. -/
theorem keypadIsTheHosts : Obligations.KeypadIsTheHosts := by
  refine ⟨fun i s t h => keypad_of_exec h, fun s t h k => ?_⟩
  obtain ⟨u, hu, rfl⟩ := step_cases h
  have tick := u.tickIf_frame s.nextInput.timerTick .keypad (by simp) k
  exact tick.trans (State.keypad_of_cycle hu k)

/-! ## What no instruction reads (R20, R29, R39) -/

/-- `s` with other contents in the sound timer, `redraw` and the events. -/
def State.withUnread (s : State) (st : Byte) (redraw : Bool) (events : List Event) : State :=
  { s with ST := st, redraw := redraw, events := events }

section
variable (s : State) (st : Byte) (redraw : Bool) (events : List Event)

theorem State.withUnread_frame :
    KeepsAllBut [.ST, .redraw, .events] s (s.withUnread st redraw events) := by
  intro p hp
  cases p <;> simp_all [Part.Same, State.withUnread, State.memRead, State.reg]

/-- A block store does not read those fields. -/
theorem State.storeBlock_withUnread (a : Nat) (bytes : List Byte) :
    (s.withUnread st redraw events).storeBlock a bytes = (s.storeBlock a bytes).withUnread st redraw events := by
  induction bytes generalizing s a with
  | nil => rfl
  | cons b rest ih => exact ih (s.memWrite a b) (a + 1)

/-- A block load does not read those fields. -/
theorem State.loadRegs_withUnread (k : Nat) (bytes : List Byte) :
    (s.withUnread st redraw events).loadRegs k bytes = (s.loadRegs k bytes).withUnread st redraw events := by
  induction bytes generalizing s k with
  | nil => rfl
  | cons b rest ih =>
    rw [State.loadRegs, State.loadRegs, ← ih]
    split <;> rfl

theorem State.skipIf_withUnread (taken : Bool) :
    (s.withUnread st redraw events).skipIf taken = (s.skipIf taken).withUnread st redraw events := by
  cases taken <;> rfl

/-- A fault does not read those fields; its event comes after the ones that stand there. -/
theorem State.raiseFault_withUnread (kind : FaultKind) (w : Word) (info : Option Nat) :
    (s.withUnread st redraw events).raiseFault kind w info =
      (s.raiseFault kind w info).withUnread st redraw (events ++ [.fault kind (s.pc - 2)]) := rfl

/-- A key test does not read those fields. -/
theorem State.testKey_withUnread (x : Reg) (level : Bool) (w : Word) :
    ∃ events', (s.withUnread st redraw events).testKey x level w = (s.testKey x level w).withUnread st redraw events' := by
  unfold State.testKey
  rw [show (s.withUnread st redraw events).keyOf x = s.keyOf x from rfl]
  cases s.keyOf x with
  | none => exact ⟨_, s.raiseFault_withUnread ..⟩
  | some k => exact ⟨_, s.skipIf_withUnread ..⟩

/-- Whatever those fields hold, an instruction answers the same state but for what it leaves in them. -/
theorem exec_withUnread (i : Instr) :
    ∃ t st' redraw' events', exec i s = .next t ∧
      exec i (s.withUnread st redraw events) = .next (t.withUnread st' redraw' events') := by
  cases i with
  | cls | drw x y n => exact ⟨_, st, true, events, rfl, rfl⟩
  | ldSt x => exact ⟨_, s.reg x, redraw, events, rfl, rfl⟩
  | ret =>
    by_cases live : 0 < s.sp.val
    · exact ⟨_, st, redraw, events, execRet_of_live live, execRet_of_live (s := s.withUnread st redraw events) live⟩
    · exact ⟨_, st, redraw, _, execRet_of_empty live,
        (execRet_of_empty (s := s.withUnread st redraw events) live).trans (congrArg _ (s.raiseFault_withUnread ..))⟩
  | call nnn =>
    by_cases room : s.sp.val < 16
    · exact ⟨_, st, redraw, events, execCall_of_room nnn room,
        execCall_of_room nnn (s := s.withUnread st redraw events) room⟩
    · exact ⟨_, st, redraw, _, execCall_of_full nnn room,
        (execCall_of_full nnn (s := s.withUnread st redraw events) room).trans (congrArg _ (s.raiseFault_withUnread ..))⟩
  | seImm x kk | sneImm x kk | seReg x y | sneReg x y =>
    exact ⟨_, st, redraw, events, rfl, congrArg _ (s.skipIf_withUnread ..)⟩
  | skp x | sknp x =>
    obtain ⟨events', h⟩ := s.testKey_withUnread st redraw events x _ _
    exact ⟨_, st, redraw, events', rfl, congrArg _ h⟩
  | ldVxK x =>
    cases key : lowestKey s.keypad with
    | none =>
      exact ⟨_, st, redraw, events, execLdVxK_of_none x key, execLdVxK_of_none x (s := s.withUnread st redraw events) key⟩
    | some k =>
      exact ⟨_, st, redraw, events, execLdVxK_of_some x key, execLdVxK_of_some x (s := s.withUnread st redraw events) key⟩
  | ldB x | ldMemStore x => exact ⟨_, st, redraw, events, rfl, congrArg _ (s.storeBlock_withUnread ..)⟩
  | ldMemLoad x => exact ⟨_, st, redraw, events, rfl, congrArg _ (s.loadRegs_withUnread ..)⟩
  | _ => exact ⟨_, st, redraw, events, rfl, rfl⟩

end

/-- Settles O52: the two answers differ by a replacement of those fields alone. -/
theorem soundRedrawAndEventsAreNotRead : Obligations.SoundRedrawAndEventsAreNotRead := by
  intro i s st redraw events
  obtain ⟨t, st', redraw', events', ht, hu⟩ := exec_withUnread s st redraw events i
  exact ⟨t, _, ht, hu, t.withUnread_frame st' redraw' events'⟩

/-! ## Reset (R38, R260) -/

/-- After `init` memory reads as the font, and as zero past it. -/
theorem State.memRead_init (s : State) (a : Nat) (h : a < Config.memSize) : s.init.memRead a = Config.font.getD a 0 := by
  simp only [State.memRead, Nat.mod_eq_of_lt h]
  rfl

theorem font_length : Config.font.length = 80 := rfl

/-- Settles O1, field by field. -/
theorem initLeavesTheResetValues : Obligations.InitLeavesTheResetValues := by
  intro s
  have font : ∀ a < 80, s.init.memRead a = Config.font.getD a 0 := fun a h =>
    s.memRead_init a (lt_trans h (by decide))
  have zero : ∀ a, 80 ≤ a → a < 4096 → s.init.memRead a = 0 := fun a past h => by
    rw [s.memRead_init a h, List.getD_eq_default _ _ (font_length ▸ past)]
  have registers : ∀ r : Reg, s.init.reg r = 0 := fun r => by simp [State.reg, State.init, State.reset]
  have slots : ∀ j : Fin 16, s.init.stack[j] = 0 := fun j => by simp [State.init, State.reset]
  have keys : ∀ k : Key, s.init.keypad[k] = false := fun k => by simp [State.init, State.reset]
  exact ⟨font, zero, registers, rfl, rfl, slots, rfl, rfl, rfl, Display.get_clear, keys, rfl, rfl, rfl, rfl⟩

/-- Settles O53: nothing is listed in memory, and there is no record. -/
theorem resetMeetsTheInvariant : Obligations.ResetMeetsTheInvariant :=
  ⟨Memory.wf_nil, fun _ record => nomatch record⟩

end Sys2Proof.Machine

/-!
The statements of spec/20_memory.md: a fetch reads the byte that was just stored, and what an access outside memory does
under the alternative policy.
-/

namespace Sys2Proof.Machine

/-! ## The bytes of the fetched word (R53) -/

/-- The two bytes fit a word, so none of `hi * 256 + lo` is lost (R53). -/
theorem toNat_wordOfBytes (hi lo : Byte) : (wordOfBytes hi lo).toNat = hi.toNat * 256 + lo.toNat := by
  have hhi := hi.isLt
  have hlo := lo.isLt
  rw [wordOfBytes, BitVec.toNat_ofNat]
  omega

theorem State.fetchWord_div (s : State) : s.fetchWord.toNat / 256 = (s.memRead s.pc.toNat).toNat := by
  have hlo := (s.memRead (s.pc.toNat + 1)).isLt
  rw [State.fetchWord, toNat_wordOfBytes]
  omega

theorem State.fetchWord_mod (s : State) : s.fetchWord.toNat % 256 = (s.memRead (s.pc.toNat + 1)).toNat := by
  have hlo := (s.memRead (s.pc.toNat + 1)).isLt
  rw [State.fetchWord, toNat_wordOfBytes]
  omega

/-- Two addresses that reduce to one read the same byte (R52). -/
theorem State.memRead_eq_of_mod_eq (s : State) {a c : Nat} (h : a % 4096 = c % 4096) : s.memRead a = s.memRead c := by
  simp only [State.memRead, h]

/-- Instruction and data reads see one memory: the fetch reads what a read of its address does (R64). -/
theorem State.fetchWord_of_memRead {t : State} {a : Nat} {b : Byte} (h : t.memRead a = b) :
    (t.pc.toNat % 4096 = a % 4096 → t.fetchWord.toNat / 256 = b.toNat) ∧
    ((t.pc.toNat + 1) % 4096 = a % 4096 → t.fetchWord.toNat % 256 = b.toNat) := by
  constructor <;> intro same
  · rw [t.fetchWord_div, t.memRead_eq_of_mod_eq same, h]
  · rw [t.fetchWord_mod, t.memRead_eq_of_mod_eq same, h]

/-! ## The bytes Fx55 and Fx33 store (R177, R178) -/

/-- What Fx55 has stored at `I + j` is `Vj`. -/
theorem State.memRead_storeBlock_regBlock (s : State) {x j : Reg} (h : j ≤ x) :
    (s.storeBlock s.base (s.regBlock x)).memRead (s.I.toNat + j.val) = s.reg j := by
  have len := s.regBlock_length x
  rw [Fin.le_def] at h
  exact (s.memRead_storeBlock_inside s.base _ (by omega) j.val (by omega)).trans (s.regBlock_getElem x j.val _)

/-- What Fx33 has stored at `I + i` is digit `i`. -/
theorem State.memRead_storeBlock_bcdDigits (s : State) (v : Byte) (i : Nat) (h : i < (bcdDigits v).length) :
    (s.storeBlock s.base (bcdDigits v)).memRead (s.I.toNat + i) = (bcdDigits v)[i] :=
  s.memRead_storeBlock_inside s.base (bcdDigits v) (show 3 ≤ 4096 by decide) i h

/-- The digits as numbers: each fits a byte (R177). -/
theorem map_toNat_bcdDigits (v : Byte) :
    (bcdDigits v).map BitVec.toNat = [v.toNat / 100, v.toNat / 10 % 10, v.toNat % 10] := by
  have hv := v.isLt
  have small : ∀ d < 256, (BitVec.ofNat 8 d).toNat = d := fun d hd => by
    rw [BitVec.toNat_ofNat, Nat.mod_eq_of_lt hd]
  simp only [bcdDigits, List.map_cons, List.map_nil, small _ (show v.toNat / 100 < 256 by omega),
    small _ (show v.toNat / 10 % 10 < 256 by omega), small _ (show v.toNat % 10 < 256 by omega)]

/-- Settles O33: the byte stored is what a read of its address answers, and the fetch is such a read. -/
theorem fetchSeesStores : Obligations.FetchSeesStores := by
  refine ⟨fun x j s h => ⟨_, rfl, State.fetchWord_of_memRead (s.memRead_storeBlock_regBlock h)⟩,
    fun x j digit s h => ⟨_, rfl, ?_⟩⟩
  have stored : ∃ hj : j < (bcdDigits (s.reg x)).length, ((bcdDigits (s.reg x))[j]).toNat = digit := by
    have at_j : ((bcdDigits (s.reg x)).map BitVec.toNat)[j]? = some digit := by
      rw [map_toNat_bcdDigits]
      rcases h with ⟨rfl, rfl⟩ | ⟨rfl, rfl⟩ | ⟨rfl, rfl⟩ <;> rfl
    simpa [List.getElem?_eq_some_iff] using at_j
  obtain ⟨hj, rfl⟩ := stored
  exact State.fetchWord_of_memRead (s.memRead_storeBlock_bcdDigits _ j hj)

/-! ## The alternative memory policy (R52, R226) -/

/-- Where an access of `n` bytes at `a` faults under the alternative: when there is a byte of it outside memory. -/
theorem outOfRange_fault (a n : Nat) :
    outOfRange .fault a n = if n = 0 ∨ a + n ≤ 4096 then none else some (max a 4096) := by
  by_cases inside : n = 0 ∨ a + n ≤ 4096
  · rw [if_pos inside]
    exact if_neg (show ¬ max a 4096 < a + n by omega)
  · rw [if_neg inside]
    exact if_pos (show max a 4096 < a + n by omega)

/-- What an access does under the alternative: it is made if it is inside memory, else it faults (R226). -/
theorem State.accessing_fault (s : State) (a n : Nat) (w : Word) (done : State) :
    s.accessing .fault a n w done =
      if n = 0 ∨ a + n ≤ 4096 then done else s.raiseFault .addressRange w (some (max a 4096)) := by
  unfold State.accessing
  rw [outOfRange_fault]
  by_cases inside : n = 0 ∨ a + n ≤ 4096
  · rw [if_pos inside, if_pos inside]
  · rw [if_neg inside, if_neg inside]

theorem State.accessing_fault_of_inside {s : State} {a n : Nat} (w : Word) (done : State) (inside : a + n ≤ 4096) :
    s.accessing .fault a n w done = done := by
  rw [State.accessing_fault, if_pos (.inr inside)]

theorem State.accessing_fault_of_outside {s : State} {a n : Nat} (w : Word) (done : State) (some_byte : 0 < n)
    (outside : 4096 < a + n) : s.accessing .fault a n w done = s.raiseFault .addressRange w (some (max a 4096)) := by
  rw [State.accessing_fault, if_neg (by omega)]

/-- A fault taken where `pc` is advanced changes the fault state alone: `pc` is back at the instruction (R223). -/
theorem State.raiseFault_advance_frame (s : State) (kind : FaultKind) (w : Word) (info : Option Nat) :
    KeepsAllBut [.fault, .events] s (s.advance.raiseFault kind w info) := by
  rw [State.raiseFault_advance]
  intro p hp
  cases p <;> simp_all [Part.Same, State.memRead, State.reg]

/-- Under the alternative a running machine whose next word leaves memory faults before it fetches (R226). -/
theorem State.cycleUnder_fault_of_outside {s : State} (running : s.Running) (outside : 4095 ≤ s.pc.toNat) :
    s.cycleUnder .fault =
      .next (s.advance.raiseFault .addressRange (Config.unfetchedWord s.pc) (some (max s.pc.toNat 4096))) := by
  have range : outOfRange .fault s.pc.toNat 2 = some (max s.pc.toNat 4096) := by
    rw [outOfRange_fault, if_neg (by omega)]
  have gate : s.fault = none := running
  simp only [State.cycleUnder, gate, range]

/-- Settles O34: every access goes through `State.accessing`, and the fetch through the same bound. -/
theorem outOfRangeFaultsUnderTheAlternative : Obligations.OutOfRangeFaultsUnderTheAlternative := by
  refine ⟨fun x s inside => ?_, fun x s outside => ?_, fun x s => ?_, fun x y n s => ?_, fun s running outside => ?_⟩
  · have block : s.base + (x.val + 1) ≤ 4096 := inside
    exact ⟨State.accessing_fault_of_inside _ _ block, State.accessing_fault_of_inside _ _ block⟩
  · have block : 4096 < s.base + (x.val + 1) := Nat.lt_succ_of_le outside
    exact ⟨State.accessing_fault_of_outside _ _ x.val.succ_pos block,
      State.accessing_fault_of_outside _ _ x.val.succ_pos block⟩
  · by_cases inside : s.I.toNat + 2 < 4096
    · rw [if_pos inside]
      exact State.accessing_fault_of_inside _ _ inside
    · rw [if_neg inside]
      exact State.accessing_fault_of_outside _ _ (by decide) (Nat.lt_succ_of_le (not_lt.mp inside))
  · exact s.accessing_fault s.base n _ _
  · refine ⟨_, State.cycleUnder_fault_of_outside running outside, ?_, s.raiseFault_advance_frame _ _ _⟩
    rw [State.raiseFault_advance]

end Sys2Proof.Machine

/-!
The statements of spec/30_encoding.md: the round trip of words and instructions, the opcode map, and the unknown space.
Each row of the map is tied once to the instruction its words encode; the statements follow from that, from the round trip
of the instructions, and from the words no row selects.
-/

namespace Sys2Proof.Machine

open Sys2Proof.Laws

/-- Settles O5, by the lemma of each constructor: the fields of its word are its operands. -/
theorem decodeOfEncode : Obligations.DecodeOfEncode
  | .cls => RoundTrip.cls
  | .ret => RoundTrip.ret
  | .jp nnn => RoundTrip.jp nnn
  | .call nnn => RoundTrip.call nnn
  | .seImm x kk => RoundTrip.seImm x kk
  | .sneImm x kk => RoundTrip.sneImm x kk
  | .seReg x y => RoundTrip.seReg x y
  | .ldImm x kk => RoundTrip.ldImm x kk
  | .addImm x kk => RoundTrip.addImm x kk
  | .ldReg x y => RoundTrip.ldReg x y
  | .orReg x y => RoundTrip.orReg x y
  | .andReg x y => RoundTrip.andReg x y
  | .xorReg x y => RoundTrip.xorReg x y
  | .addReg x y => RoundTrip.addReg x y
  | .sub x y => RoundTrip.sub x y
  | .shr x y => RoundTrip.shr x y
  | .subn x y => RoundTrip.subn x y
  | .shl x y => RoundTrip.shl x y
  | .sneReg x y => RoundTrip.sneReg x y
  | .ldI nnn => RoundTrip.ldI nnn
  | .jpV0 nnn => RoundTrip.jpV0 nnn
  | .rnd x kk => RoundTrip.rnd x kk
  | .drw x y n => RoundTrip.drw x y n
  | .skp x => RoundTrip.skp x
  | .sknp x => RoundTrip.sknp x
  | .ldVxDt x => RoundTrip.ldVxDt x
  | .ldVxK x => RoundTrip.ldVxK x
  | .ldDt x => RoundTrip.ldDt x
  | .ldSt x => RoundTrip.ldSt x
  | .addI x => RoundTrip.addI x
  | .ldF x => RoundTrip.ldF x
  | .ldB x => RoundTrip.ldB x
  | .ldMemStore x => RoundTrip.ldMemStore x
  | .ldMemLoad x => RoundTrip.ldMemLoad x

/-! ## A selected word from its operand fields: one lemma per format (R82, R85) -/

section
variable {w bits : Word} {op : Nat}

theorem fieldOp_of_selects (hbits : bits.toNat = op * 4096) (h : w &&& 0xF000 = bits) : fieldOp w = op := by
  rw [(selects_F000 w bits (by omega)).mp h]
  omega

theorem wordNNN_of_selects (hbits : bits.toNat = op * 4096) (h : w &&& 0xF000 = bits) : wordNNN op (fieldNNN w) = w := by
  rw [← fieldOp_of_selects hbits h, word_eq_NNN]

theorem wordXKK_of_selects (hbits : bits.toNat = op * 4096) (h : w &&& 0xF000 = bits) :
    wordXKK op (fieldX w) (fieldKK w) = w := by
  rw [← fieldOp_of_selects hbits h, word_eq_XKK]

theorem wordXYN_of_selects (hbits : bits.toNat = op * 4096) (h : w &&& 0xF000 = bits) :
    wordXYN op (fieldX w) (fieldY w) (fieldN w) = w := by
  rw [← fieldOp_of_selects hbits h, word_eq_XYN]

/-- Formats XY0 and XYS: the low nibble is the row's. -/
theorem wordXYS_of_selects {n : Nat} (hbits : bits.toNat = op * 4096 + n) (hn : n < 16) (h : w &&& 0xF00F = bits) :
    wordXYN op (fieldX w) (fieldY w) n = w := by
  obtain ⟨family, nibble⟩ := (selects_F00F w bits (by omega)).mp h
  rw [show op = fieldOp w by omega, show n = fieldN w by omega, word_eq_XYN]

/-- Format XSS: the low byte is the row's. -/
theorem wordXSS_of_selects {kk : Byte} (hbits : bits.toNat = op * 4096 + kk.toNat) (h : w &&& 0xF0FF = bits) :
    wordXKK op (fieldX w) kk = w := by
  have hkk := kk.isLt
  obtain ⟨family, byte⟩ := (selects_F0FF w bits (by omega)).mp h
  rw [show op = fieldOp w by omega, show kk = fieldKK w from BitVec.eq_of_toNat_eq (by omega), word_eq_XKK]

end

/-! ## The rows of the opcode map and their instructions (R85) -/

theorem fieldN_lt (w : Word) : fieldN w < 16 := BitVec.isLt _

/-- The words a row selects are the words of the row's instruction, with the fields of the word as its operands. -/
structure RowEncodes (row : OpcodeRow) (i : Word → Instr) : Prop where
  /-- A word the row selects is the word of the instruction. -/
  encode_eq : ∀ w, row.selects w → encode (i w) = w
  /-- The instruction is the row's. -/
  mnemonic_eq : ∀ w, mnemonic (i w) = row.mnemonic := by exact fun _ => rfl
  /-- Its operands fit. -/
  wellFormed : ∀ w, WellFormed (i w) = true := by exact fun _ => rfl

/-- A row that encodes its instruction decodes to it, by the round trip of the instruction. -/
theorem RowEncodes.decodesAs {row : OpcodeRow} {i : Word → Instr} (h : RowEncodes row i) :
    DecodesAs row.bits row.mask i := by
  intro w selected
  have round_trip := decodeOfEncode (i w) (h.wellFormed w)
  rwa [h.encode_eq w selected] at round_trip

theorem rowEncodes_cls : RowEncodes ⟨"CLS", 0x00E0, 0xFFFF⟩ (fun _ => .cls) where
  encode_eq _ h := ((selects_FFFF _ _).mp h).symm

theorem rowEncodes_ret : RowEncodes ⟨"RET", 0x00EE, 0xFFFF⟩ (fun _ => .ret) where
  encode_eq _ h := ((selects_FFFF _ _).mp h).symm

theorem rowEncodes_jp : RowEncodes ⟨"JP", 0x1000, 0xF000⟩ (fun w => .jp (fieldNNN w)) where
  encode_eq _ := wordNNN_of_selects rfl

theorem rowEncodes_call : RowEncodes ⟨"CALL", 0x2000, 0xF000⟩ (fun w => .call (fieldNNN w)) where
  encode_eq _ := wordNNN_of_selects rfl

theorem rowEncodes_seImm : RowEncodes ⟨"SE_imm", 0x3000, 0xF000⟩ (fun w => .seImm (fieldX w) (fieldKK w)) where
  encode_eq _ := wordXKK_of_selects rfl

theorem rowEncodes_sneImm : RowEncodes ⟨"SNE_imm", 0x4000, 0xF000⟩ (fun w => .sneImm (fieldX w) (fieldKK w)) where
  encode_eq _ := wordXKK_of_selects rfl

theorem rowEncodes_seReg : RowEncodes ⟨"SE_reg", 0x5000, 0xF00F⟩ (fun w => .seReg (fieldX w) (fieldY w)) where
  encode_eq _ := wordXYS_of_selects rfl (by decide)

theorem rowEncodes_ldImm : RowEncodes ⟨"LD_imm", 0x6000, 0xF000⟩ (fun w => .ldImm (fieldX w) (fieldKK w)) where
  encode_eq _ := wordXKK_of_selects rfl

theorem rowEncodes_addImm : RowEncodes ⟨"ADD_imm", 0x7000, 0xF000⟩ (fun w => .addImm (fieldX w) (fieldKK w)) where
  encode_eq _ := wordXKK_of_selects rfl

theorem rowEncodes_ldReg : RowEncodes ⟨"LD_reg", 0x8000, 0xF00F⟩ (fun w => .ldReg (fieldX w) (fieldY w)) where
  encode_eq _ := wordXYS_of_selects rfl (by decide)

theorem rowEncodes_orReg : RowEncodes ⟨"OR", 0x8001, 0xF00F⟩ (fun w => .orReg (fieldX w) (fieldY w)) where
  encode_eq _ := wordXYS_of_selects rfl (by decide)

theorem rowEncodes_andReg : RowEncodes ⟨"AND", 0x8002, 0xF00F⟩ (fun w => .andReg (fieldX w) (fieldY w)) where
  encode_eq _ := wordXYS_of_selects rfl (by decide)

theorem rowEncodes_xorReg : RowEncodes ⟨"XOR", 0x8003, 0xF00F⟩ (fun w => .xorReg (fieldX w) (fieldY w)) where
  encode_eq _ := wordXYS_of_selects rfl (by decide)

theorem rowEncodes_addReg : RowEncodes ⟨"ADD_reg", 0x8004, 0xF00F⟩ (fun w => .addReg (fieldX w) (fieldY w)) where
  encode_eq _ := wordXYS_of_selects rfl (by decide)

theorem rowEncodes_sub : RowEncodes ⟨"SUB", 0x8005, 0xF00F⟩ (fun w => .sub (fieldX w) (fieldY w)) where
  encode_eq _ := wordXYS_of_selects rfl (by decide)

theorem rowEncodes_shr : RowEncodes ⟨"SHR", 0x8006, 0xF00F⟩ (fun w => .shr (fieldX w) (fieldY w)) where
  encode_eq _ := wordXYS_of_selects rfl (by decide)

theorem rowEncodes_subn : RowEncodes ⟨"SUBN", 0x8007, 0xF00F⟩ (fun w => .subn (fieldX w) (fieldY w)) where
  encode_eq _ := wordXYS_of_selects rfl (by decide)

theorem rowEncodes_shl : RowEncodes ⟨"SHL", 0x800E, 0xF00F⟩ (fun w => .shl (fieldX w) (fieldY w)) where
  encode_eq _ := wordXYS_of_selects rfl (by decide)

theorem rowEncodes_sneReg : RowEncodes ⟨"SNE_reg", 0x9000, 0xF00F⟩ (fun w => .sneReg (fieldX w) (fieldY w)) where
  encode_eq _ := wordXYS_of_selects rfl (by decide)

theorem rowEncodes_ldI : RowEncodes ⟨"LD_I", 0xA000, 0xF000⟩ (fun w => .ldI (fieldNNN w)) where
  encode_eq _ := wordNNN_of_selects rfl

theorem rowEncodes_jpV0 : RowEncodes ⟨"JP_V0", 0xB000, 0xF000⟩ (fun w => .jpV0 (fieldNNN w)) where
  encode_eq _ := wordNNN_of_selects rfl

theorem rowEncodes_rnd : RowEncodes ⟨"RND", 0xC000, 0xF000⟩ (fun w => .rnd (fieldX w) (fieldKK w)) where
  encode_eq _ := wordXKK_of_selects rfl

theorem rowEncodes_drw : RowEncodes ⟨"DRW", 0xD000, 0xF000⟩ (fun w => .drw (fieldX w) (fieldY w) (fieldN w)) where
  encode_eq _ := wordXYN_of_selects rfl
  wellFormed w := decide_eq_true (fieldN_lt w)

theorem rowEncodes_skp : RowEncodes ⟨"SKP", 0xE09E, 0xF0FF⟩ (fun w => .skp (fieldX w)) where
  encode_eq _ := wordXSS_of_selects rfl

theorem rowEncodes_sknp : RowEncodes ⟨"SKNP", 0xE0A1, 0xF0FF⟩ (fun w => .sknp (fieldX w)) where
  encode_eq _ := wordXSS_of_selects rfl

theorem rowEncodes_ldVxDt : RowEncodes ⟨"LD_Vx_DT", 0xF007, 0xF0FF⟩ (fun w => .ldVxDt (fieldX w)) where
  encode_eq _ := wordXSS_of_selects rfl

theorem rowEncodes_ldVxK : RowEncodes ⟨"LD_Vx_K", 0xF00A, 0xF0FF⟩ (fun w => .ldVxK (fieldX w)) where
  encode_eq _ := wordXSS_of_selects rfl

theorem rowEncodes_ldDt : RowEncodes ⟨"LD_DT", 0xF015, 0xF0FF⟩ (fun w => .ldDt (fieldX w)) where
  encode_eq _ := wordXSS_of_selects rfl

theorem rowEncodes_ldSt : RowEncodes ⟨"LD_ST", 0xF018, 0xF0FF⟩ (fun w => .ldSt (fieldX w)) where
  encode_eq _ := wordXSS_of_selects rfl

theorem rowEncodes_addI : RowEncodes ⟨"ADD_I", 0xF01E, 0xF0FF⟩ (fun w => .addI (fieldX w)) where
  encode_eq _ := wordXSS_of_selects rfl

theorem rowEncodes_ldF : RowEncodes ⟨"LD_F", 0xF029, 0xF0FF⟩ (fun w => .ldF (fieldX w)) where
  encode_eq _ := wordXSS_of_selects rfl

theorem rowEncodes_ldB : RowEncodes ⟨"LD_B", 0xF033, 0xF0FF⟩ (fun w => .ldB (fieldX w)) where
  encode_eq _ := wordXSS_of_selects rfl

theorem rowEncodes_ldMemStore : RowEncodes ⟨"LD_mem_store", 0xF055, 0xF0FF⟩ (fun w => .ldMemStore (fieldX w)) where
  encode_eq _ := wordXSS_of_selects rfl

theorem rowEncodes_ldMemLoad : RowEncodes ⟨"LD_mem_load", 0xF065, 0xF0FF⟩ (fun w => .ldMemLoad (fieldX w)) where
  encode_eq _ := wordXSS_of_selects rfl

/-- Every row of the opcode map has its instruction. -/
theorem exists_rowEncodes : ∀ row ∈ opcodeMap, ∃ i, RowEncodes row i := by
  have low : ∀ row ∈ opcodeRowsLow, ∃ i, RowEncodes row i := by
    simp only [opcodeRowsLow, List.forall_mem_cons]
    exact ⟨⟨_, rowEncodes_cls⟩, ⟨_, rowEncodes_ret⟩, ⟨_, rowEncodes_jp⟩, ⟨_, rowEncodes_call⟩,
      ⟨_, rowEncodes_seImm⟩, ⟨_, rowEncodes_sneImm⟩, ⟨_, rowEncodes_seReg⟩, ⟨_, rowEncodes_ldImm⟩,
      ⟨_, rowEncodes_addImm⟩, by simp⟩
  have mid : ∀ row ∈ opcodeRowsMid, ∃ i, RowEncodes row i := by
    simp only [opcodeRowsMid, List.forall_mem_cons]
    exact ⟨⟨_, rowEncodes_ldReg⟩, ⟨_, rowEncodes_orReg⟩, ⟨_, rowEncodes_andReg⟩, ⟨_, rowEncodes_xorReg⟩,
      ⟨_, rowEncodes_addReg⟩, ⟨_, rowEncodes_sub⟩, ⟨_, rowEncodes_shr⟩, ⟨_, rowEncodes_subn⟩,
      ⟨_, rowEncodes_shl⟩, ⟨_, rowEncodes_sneReg⟩, ⟨_, rowEncodes_ldI⟩, ⟨_, rowEncodes_jpV0⟩,
      ⟨_, rowEncodes_rnd⟩, ⟨_, rowEncodes_drw⟩, by simp⟩
  have high : ∀ row ∈ opcodeRowsHigh, ∃ i, RowEncodes row i := by
    simp only [opcodeRowsHigh, List.forall_mem_cons]
    exact ⟨⟨_, rowEncodes_skp⟩, ⟨_, rowEncodes_sknp⟩, ⟨_, rowEncodes_ldVxDt⟩, ⟨_, rowEncodes_ldVxK⟩,
      ⟨_, rowEncodes_ldDt⟩, ⟨_, rowEncodes_ldSt⟩, ⟨_, rowEncodes_addI⟩, ⟨_, rowEncodes_ldF⟩,
      ⟨_, rowEncodes_ldB⟩, ⟨_, rowEncodes_ldMemStore⟩, ⟨_, rowEncodes_ldMemLoad⟩, by simp⟩
  simp only [opcodeMap, List.forall_mem_append]
  exact ⟨⟨low, mid⟩, high⟩

/-- A word some row selects is the word of an instruction of that row, and decodes to it. -/
theorem exists_instr_of_selects {w : Word} {row : OpcodeRow} (mem : row ∈ opcodeMap) (selected : row.selects w) :
    ∃ i, decode w = .instr i ∧ mnemonic i = row.mnemonic ∧ WellFormed i = true ∧ encode i = w := by
  obtain ⟨i, h⟩ := exists_rowEncodes row mem
  exact ⟨i w, h.decodesAs w selected, h.mnemonic_eq w, h.wellFormed w, h.encode_eq w selected⟩

/-! ## The unknown space (R86) -/

/-- The decoder refuses the listed words, family by family. -/
theorem decode_of_unknownSpace {w : Word} (h : UnknownSpace w) : decode w = .unknown w := by
  rcases h with ⟨op, cls, ret⟩ | ⟨op, nibble⟩ | ⟨op, nibble⟩ | ⟨op, nibble⟩ | ⟨op, byte⟩ | ⟨op, byte⟩
  · simp only [decode, op, if_neg cls, if_neg ret]
  · simp only [decode, op, if_neg nibble]
  · simp only [decode, op]
    simp only [List.mem_cons, List.not_mem_nil, or_false] at nibble
    rcases nibble with n | n | n | n | n | n | n <;> simp only [decodeFamily8, n]
  · simp only [decode, op, if_neg nibble]
  · have skp : fieldKK w ≠ 0x9E := fun e => byte (by simp [e])
    have sknp : fieldKK w ≠ 0xA1 := fun e => byte (by simp [e])
    simp only [decode, op, if_neg skp, if_neg sknp]
  · simp only [decode, op, decodeFamilyF]
    split <;> simp_all

/-- What no row selects is in the list: the rows take whole families, or the rest of a family by its sub-opcode. -/
theorem unknownSpace_of_not_selected {w : Word} (h : ∀ row ∈ opcodeMap, ¬ row.selects w) : UnknownSpace w := by
  -- What it says of a word's fields that a row does not select it.
  simp (disch := decide) only [opcodeMap, opcodeRowsLow, opcodeRowsMid, opcodeRowsHigh, List.forall_mem_append,
    List.forall_mem_cons, OpcodeRow.selects, selects_FFFF, selects_F000, selects_F00F, selects_F0FF] at h
  simp only [BitVec.ofNat_eq_ofNat, BitVec.toNat_ofNat] at h
  obtain ⟨⟨⟨cls, ret, low⟩, mid⟩, high⟩ := h
  have op_lt := fieldOp_lt w
  have n_lt := fieldN_lt w
  have family : fieldOp w = 0x0 ∨ fieldOp w = 0x5 ∨ fieldOp w = 0x8 ∨ fieldOp w = 0x9 ∨ fieldOp w = 0xE ∨
      fieldOp w = 0xF := by omega
  simp only [UnknownSpace, List.mem_cons, List.not_mem_nil, or_false]
  rcases family with op | op | op | op | op | op
  · exact .inl ⟨op, cls, ret⟩
  · exact .inr (.inl ⟨op, by simpa [op] using low⟩)
  · simp [op] at mid
    exact .inr (.inr (.inl ⟨op, by omega⟩))
  · exact .inr (.inr (.inr (.inl ⟨op, by simpa [op] using mid⟩)))
  · exact .inr (.inr (.inr (.inr (.inl ⟨op, by simpa [op] using high⟩))))
  · exact .inr (.inr (.inr (.inr (.inr ⟨op, by simpa [op] using high⟩))))

theorem unknownSpace_iff_not_selected (w : Word) : UnknownSpace w ↔ ∀ row ∈ opcodeMap, ¬ row.selects w := by
  refine ⟨fun unknown row mem selected => ?_, unknownSpace_of_not_selected⟩
  obtain ⟨i, hi, -⟩ := exists_instr_of_selects mem selected
  cases hi.symm.trans (decode_of_unknownSpace unknown)

theorem decode_unknown_iff_unknownSpace (w : Word) : decode w = .unknown w ↔ UnknownSpace w := by
  refine ⟨fun unknown => unknownSpace_of_not_selected fun row mem selected => ?_, decode_of_unknownSpace⟩
  obtain ⟨i, hi, -⟩ := exists_instr_of_selects mem selected
  cases hi.symm.trans unknown

/-- A word that decodes to an instruction is selected by that instruction's row, and is the instruction's word. -/
theorem exists_row_of_instr {w : Word} {i : Instr} (h : decode w = .instr i) :
    ∃ row ∈ opcodeMap, row.selects w ∧ mnemonic i = row.mnemonic ∧ WellFormed i = true ∧ encode i = w := by
  have known : ¬ UnknownSpace w := fun unknown => by cases h.symm.trans (decode_of_unknownSpace unknown)
  rw [unknownSpace_iff_not_selected] at known
  push Not at known
  obtain ⟨row, mem, selected⟩ := known
  obtain ⟨j, hj, rest⟩ := exists_instr_of_selects mem selected
  obtain rfl : i = j := Decoded.instr.inj (h.symm.trans hj)
  exact ⟨row, mem, selected, rest⟩

/-- Settles O6: some row selects the word, and its instruction's word is that word. -/
theorem encodeOfDecode : Obligations.EncodeOfDecode := by
  intro w i h
  obtain ⟨row, -, -, -, wellFormed, word⟩ := exists_row_of_instr h
  exact ⟨wellFormed, word⟩

/-- Settles O7: each row decodes to its instruction, and a word of no row decodes to none. -/
theorem decodeFollowsTheOpcodeMap : Obligations.DecodeFollowsTheOpcodeMap := by
  refine fun w => ⟨fun row mem selected => ?_, fun i h => ?_⟩
  · obtain ⟨i, hi, name, -⟩ := exists_instr_of_selects mem selected
    exact ⟨i, hi, name⟩
  · obtain ⟨row, mem, selected, name, -⟩ := exists_row_of_instr h
    exact ⟨row, mem, name.symm, selected⟩

/-! ## Disjointness (R84) -/

/-- Two rows one word selects agree on the bits both masks keep. -/
theorem bits_agree_of_selects {r₁ r₂ : OpcodeRow} {w : Word} (h₁ : r₁.selects w) (h₂ : r₂.selects w) :
    r₁.bits &&& r₂.mask = r₂.bits &&& r₁.mask := by
  rw [← show w &&& r₁.mask = r₁.bits from h₁, ← show w &&& r₂.mask = r₂.bits from h₂]
  ac_rfl

/-- Only a row and itself agree on the bits both masks keep. -/
theorem opcodeRow_eq_of_agree :
    ∀ r₁ ∈ opcodeMap, ∀ r₂ ∈ opcodeMap, r₁.bits &&& r₂.mask = r₂.bits &&& r₁.mask → r₁ = r₂ := by
  decide

/-- Settles O8: two rows that select one word agree on that word's bits under both masks. -/
theorem opcodePatternsAreDisjoint : Obligations.OpcodePatternsAreDisjoint :=
  ⟨rfl, fun _ r₁ mem₁ r₂ mem₂ h₁ h₂ => opcodeRow_eq_of_agree r₁ mem₁ r₂ mem₂ (bits_agree_of_selects h₁ h₂)⟩

/-! ## An unknown opcode in the cycle (R106) -/

theorem State.cycle_of_running {s : State} (running : s.Running) : s.cycle = s.runWord s.fetchWord := by
  have gate : s.fault = none := running
  simp only [State.cycle, State.cycleUnder, gate, Config.memOobPolicy, outOfRange_wrap12]

theorem State.emit_frame (s : State) (e : Event) : KeepsAllBut [.events] s (s.emit e) := by
  intro p hp
  cases p <;> simp_all [Part.Same, State.memRead, State.reg]

/-- A running machine that fetches an unknown opcode advances and reports it. -/
theorem State.cycle_of_unknown {s : State} (running : s.Running) (unknown : decode s.fetchWord = .unknown s.fetchWord) :
    s.cycle = .next (s.advance.emit (.unknownOpcode s.fetchWord s.pc)) := by
  simp only [State.cycle_of_running running, State.runWord, unknown]

/-- The advance and the report change `pc` and the events alone. -/
theorem State.advance_emit_frame (s : State) (e : Event) : KeepsAllBut [.pc, .events] s (s.advance.emit e) :=
  ((s.setPc_frame _).mono (by simp)).trans ((s.advance.emit_frame e).mono (by simp))

/-- Settles O9: the list is what no row selects, the decoder refuses exactly that, and the cycle reports what it refuses. -/
theorem unknownSpaceIsExact : Obligations.UnknownSpaceIsExact := by
  refine fun w => ⟨decode_unknown_iff_unknownSpace w, unknownSpace_iff_not_selected w, ?_⟩
  rintro s running rfl unknown
  exact ⟨_, State.cycle_of_unknown running (decode_of_unknownSpace unknown), rfl, running, rfl, s.advance_emit_frame _⟩

/-- Settles O4: the words of R85 and R90, each decoded. -/
theorem familyWordsDecode : Obligations.FamilyWordsDecode := by
  unfold Obligations.FamilyWordsDecode
  decide

end Sys2Proof.Machine

/-!
The statements of spec/40_cycle.md and of the fault state: what is fetched, what `exec` and a step do with a decoded word,
an unknown one and a fault record, that every step answers, and that the tick comes last.
-/

namespace Sys2Proof.Machine

/-! ## What `exec` as a whole answers (R105, R106, R107) -/

/-- Settles O10: the two bytes combined, the address reduced, and the word run. -/
theorem fetchIsBigEndian : Obligations.FetchIsBigEndian := fun s =>
  ⟨toNat_wordOfBytes _ _, fun a => s.memRead_eq_of_mod_eq (Nat.mod_mod a 4096).symm, State.cycle_of_running⟩

/-- A running machine executes the instruction its fetched word decodes to, past the advance (R102 to R104). -/
theorem State.cycle_of_instr {s : State} {i : Instr} (running : s.Running) (decoded : decode s.fetchWord = .instr i) :
    s.cycle = exec i s.advance := by
  simp only [State.cycle_of_running running, State.runWord, decoded]

/-- In the fault state nothing is executed (R105). -/
theorem State.cycle_of_fault {s : State} {r : FaultRecord} (record : s.fault = some r) : s.cycle = .next s := by
  simp only [State.cycle, State.cycleUnder, record]

/-- Settles O12: the answer is the advance and the report. -/
theorem unknownOpcodeIsAReportedNoOp : Obligations.UnknownOpcodeIsAReportedNoOp := fun s running unknown =>
  ⟨_, State.cycle_of_unknown running unknown, rfl, rfl, s.advance_emit_frame _⟩

/-! ## What a step is (R108, R109) -/

/-- The accesses of the host change what is the host's alone (R109, R243). -/
theorem State.hostActs_frame (s : State) : KeepsAllBut [.keypad, .redraw, .inputs] s s.hostActs := by
  intro p hp
  cases p <;> simp_all [Part.Same, State.memRead, State.reg]

theorem State.begin_frame (s : State) : KeepsAllBut [.events] s s.begin := by
  intro p hp
  cases p <;> simp_all [Part.Same, State.memRead, State.reg]

/-- What comes before `exec` in a step changes the host's parts and clears the events. -/
theorem State.hostActs_begin_frame (s : State) : KeepsAllBut [.keypad, .redraw, .events, .inputs] s s.hostActs.begin :=
  (s.hostActs_frame.mono (by simp)).trans (s.hostActs.begin_frame.mono (by simp))

/-- `step(timer_tick)` of a running machine is the decoded instruction, then the tick if asked for. -/
theorem State.stepOp_of_instr {s : State} {i : Instr} (timerTick : Bool) (running : s.Running)
    (decoded : decode s.fetchWord = .instr i) : s.stepOp timerTick = tickAfter timerTick (exec i s.begin.advance) :=
  congrArg (tickAfter timerTick) (State.cycle_of_instr (s := s.begin) running decoded)

/-- Where `exec` answers, `step(timer_tick)` answers its next state, ticked if asked for. -/
theorem State.stepOp_of_cycle {s t : State} (timerTick : Bool) (h : s.begin.cycle = .next t) :
    s.stepOp timerTick = .next (t.tickIf timerTick) :=
  congrArg (tickAfter timerTick) h

/-- Settles O11: the host's accesses change neither the gate nor the fetched word, so `exec` runs the instruction. -/
theorem stepRunsTheDecodedInstruction : Obligations.StepRunsTheDecodedInstruction := by
  intro s i running decoded
  have before : KeepsAllBut [.pc, .keypad, .redraw, .events, .inputs] s s.hostActs.begin :=
    s.hostActs_begin_frame.mono (by simp)
  have advanced : KeepsAllBut [.pc, .keypad, .redraw, .events, .inputs] s.hostActs.begin s.hostActs.begin.advance :=
    (State.setPc_frame _ _).mono (by simp)
  exact ⟨State.stepOp_of_instr (s := s.hostActs) _ running decoded, rfl, before.trans advanced⟩

/-! ## Every step answers (R110) -/

theorem exec_answers (i : Instr) (s : State) : ∃ t, exec i s = .next t := by
  obtain ⟨t, answer, -⟩ := exec_writesOnly i s
  exact ⟨t, answer⟩

theorem State.cycle_answers (s : State) : ∃ t, s.cycle = .next t := by
  cases gate : s.fault with
  | some r => exact ⟨s, State.cycle_of_fault gate⟩
  | none =>
    rw [State.cycle_of_running gate]
    rcases s.runWord_cases s.fetchWord with ⟨i, -, runs⟩ | ⟨-, reports⟩
    · exact runs ▸ exec_answers i s.advance
    · exact ⟨_, reports⟩

theorem step_answers (s : State) : ∃ t, step s = .next t := by
  obtain ⟨u, answer⟩ := s.hostActs.begin.cycle_answers
  exact ⟨_, State.stepOp_of_cycle _ answer⟩

/-- Settles O14, by the answers of the instructions and of `exec` as a whole. -/
theorem everyStepReturnsNormally : Obligations.EveryStepReturnsNormally := ⟨step_answers, exec_answers⟩

/-! ## The tick after the instruction (R108, R231, R233) -/

@[simp] theorem State.tick_DT (s : State) : s.tick.DT = countDown s.DT := by
  rcases s.tick_cases with ⟨-, h⟩ | ⟨-, h⟩ <;> rw [h]

@[simp] theorem State.tick_ST (s : State) : s.tick.ST = countDown s.ST := by
  rcases s.tick_cases with ⟨one, h⟩ | ⟨-, h⟩ <;> rw [h]
  rw [one]
  rfl

theorem State.toNat_tick_DT (s : State) : s.tick.DT.toNat = s.DT.toNat - 1 := by
  rw [State.tick_DT, countDown_toNat]

theorem State.toNat_tick_ST (s : State) : s.tick.ST.toNat = s.ST.toNat - 1 := by
  rw [State.tick_ST, countDown_toNat]

/-- A tick emits the cue when the sound timer stands at 1, and then alone (R233). -/
theorem State.tick_events (s : State) : s.tick.events = if s.ST = 1 then s.events ++ [.toneCue] else s.events := by
  rcases s.tick_cases with ⟨one, h⟩ | ⟨other, h⟩
  · rw [h, if_pos one]
  · rw [h, if_neg other]

@[simp] theorem State.reg_tick (s : State) (x : Reg) : s.tick.reg x = s.reg x :=
  s.tickIf_frame true .V (by simp) x

/-- In a step without a tick `exec` is all (R108). -/
theorem tickAfter_false (r : Result) : tickAfter false r = r := by
  cases r <;> rfl

/-- In a step with a tick, the answer of the decoded instruction is ticked. -/
theorem State.stepOp_true_of_instr {s t : State} {i : Instr} (running : s.Running) (decoded : decode s.fetchWord = .instr i)
    (answer : exec i s.begin.advance = .next t) : s.stepOp true = .next t.tick := by
  rw [State.stepOp_of_instr true running decoded, answer]
  rfl

/-- Settles O13: each of the three moves leaves its value to the tick, which counts down what it finds. -/
theorem tickComesAfterTheInstruction : Obligations.TickComesAfterTheInstruction := by
  intro s x running
  refine ⟨fun decoded => ?delay, fun decoded => ?sound, fun decoded => ?read, tickAfter_false _⟩
  case delay => exact ⟨_, State.stepOp_true_of_instr running decoded rfl, State.toNat_tick_DT _⟩
  case sound => exact ⟨_, State.stepOp_true_of_instr running decoded rfl, State.toNat_tick_ST _, State.tick_events _⟩
  case read =>
    have loaded : (s.begin.advance.setReg x s.DT).tick.reg x = s.DT := by
      rw [State.reg_tick, State.reg_setReg_same]
    exact ⟨_, State.stepOp_true_of_instr running decoded rfl, loaded, State.toNat_tick_DT _⟩

/-! ## The fault state (R105, R225, R235) -/

/-- In the fault state a step is what the host does and the tick it asks for. -/
theorem step_of_fault {s : State} {r : FaultRecord} (record : s.fault = some r) :
    step s = .next (s.hostActs.begin.tickIf s.nextInput.timerTick) :=
  State.stepOp_of_cycle (s := s.hostActs) _ (State.cycle_of_fault (r := r) record)

/-- What a step keeps, with an answer, every run keeps, with an answer. -/
theorem run_answers_of_step {P : State → Prop} (kept : ∀ s, P s → ∃ t, step s = .next t ∧ P t) {s : State} (start : P s)
    (k : Nat) : ∃ t, core.run k s = .next t ∧ P t := by
  induction k with
  | zero => exact ⟨s, run_zero s, start⟩
  | succ k ih =>
    obtain ⟨t, run, ht⟩ := ih
    obtain ⟨u, last, hu⟩ := kept t ht
    exact ⟨u, run_last_step k run last, hu⟩

/-- The parts that move in the fault state: the timers, the events, and what the host writes. -/
abbrev faultMoves : List Part := [.DT, .ST, .keypad, .redraw, .events, .inputs]

/-- What stands around `exec` in a step moves only those parts. -/
theorem State.tickIf_hostActs_begin_frame (s : State) :
    KeepsAllBut faultMoves s (s.hostActs.begin.tickIf s.nextInput.timerTick) :=
  (s.hostActs_begin_frame.mono (by simp)).trans ((State.tickIf_frame _ _).mono (by simp))

/-- However many steps are taken in the fault state, only those parts move: the record, which is none of them, keeps
every further step from executing. -/
theorem run_of_fault {s : State} {r : FaultRecord} (record : s.fault = some r) (k : Nat) :
    ∃ t, core.run k s = .next t ∧ KeepsAllBut faultMoves s t := by
  refine run_answers_of_step (fun t frame => ?_) (.refl _ s) k
  have kept : t.fault = s.fault := frame .fault (by simp)
  exact ⟨_, step_of_fault (kept.trans record), frame.trans t.tickIf_hostActs_begin_frame⟩

/-- Settles O49: a run keeps the record, and where there is one `exec` does nothing. -/
theorem faultStateIsInert : Obligations.FaultStateIsInert := fun s _ record =>
  ⟨run_of_fault record, State.cycle_of_fault record,
    fun timerTick => State.stepOp_of_cycle timerTick (State.cycle_of_fault (s := s.begin) record), rfl⟩

end Sys2Proof.Machine

/-!
The statements of spec/41_control_flow.md: jumps, the call and its return, and the skips on register values.
-/

namespace Sys2Proof.Machine

/-! ## Jumps (R121, R129) -/

@[simp] theorem toNat_addrWord (nnn : Addr) : (addrWord nnn).toNat = nnn.toNat :=
  BitVec.toNat_setWidth_of_le (by decide)

@[simp] theorem toNat_byteWord (v : Byte) : (byteWord v).toNat = v.toNat :=
  BitVec.toNat_setWidth_of_le (by decide)

/-- The largest target of `Bnnn` is 4095 + 255, so the sum keeps its full width (R129). -/
theorem toNat_addrWord_add_byteWord (nnn : Addr) (v : Byte) : (addrWord nnn + byteWord v).toNat = nnn.toNat + v.toNat := by
  rw [BitVec.toNat_add, toNat_addrWord, toNat_byteWord]
  omega

/-- A jump to its own address undoes its own advance (R111). -/
theorem State.cycle_of_self_jump {s : State} {nnn : Addr} (running : s.Running)
    (decoded : decode s.fetchWord = .instr (.jp nnn)) (self : s.pc.toNat = nnn.toNat) : s.cycle = .next s := by
  have target : addrWord nnn = s.pc := BitVec.eq_of_toNat_eq ((toNat_addrWord nnn).trans self.symm)
  calc s.cycle = .next (s.advance.setPc (addrWord nnn)) := State.cycle_of_instr running decoded
    _ = .next s := by rw [target]; rfl

/-- Settles O16: both jumps are one write of `pc`, and at its own address that write undoes the advance. -/
theorem jumpsSetPc : Obligations.JumpsSetPc :=
  ⟨fun nnn s => ⟨_, rfl, toNat_addrWord nnn, s.setPc_frame _⟩,
    fun nnn s => ⟨_, rfl, toNat_addrWord_add_byteWord nnn (s.reg 0), s.setPc_frame _⟩,
    fun _ _ => State.cycle_of_self_jump, rowEncodes_jp.decodesAs, rowEncodes_jpV0.decodesAs⟩

/-! ## Call and return (R120, R122, R123) -/

theorem State.stack_push (s : State) (v : Word) (room : s.sp.val < 16) (j : Fin 16) :
    (s.push v room).stack[j] = if j.val = s.sp.val then v else s.stack[j] := by
  simp [Vector.getElem_set, eq_comm]

/-- What a call with room does (R122). -/
theorem exec_call_of_room (nnn : Addr) (s : State) (room : s.sp.val < 16) :
    ∃ t, exec (.call nnn) s = .next t ∧ t.pc.toNat = nnn.toNat ∧ t.sp.val = s.sp.val + 1 ∧
      (∀ j : Fin 16, t.stack[j] = if j.val = s.sp.val then s.pc else s.stack[j]) ∧
      KeepsAllBut [.pc, .stack, .sp] s t :=
  ⟨_, execCall_of_room nnn room, toNat_addrWord nnn, rfl, s.stack_push s.pc room,
    ((s.push_frame s.pc room).mono (by simp)).trans ((State.setPc_frame _ _).mono (by simp))⟩

/-- What a return with the live entry `j` on top does (R120). -/
theorem exec_ret_of_live (s : State) (j : Fin 16) (level : s.sp.val = j.val + 1) :
    ∃ t, exec .ret s = .next t ∧ t.pc = s.stack[j] ∧ t.sp.val = j.val ∧ KeepsAllBut [.pc, .sp] s t := by
  have live : 0 < s.sp.val := by omega
  have below : s.sp.val - 1 = j.val := by omega
  have top : s.top live = s.stack[j] := by simp only [State.top, below, Fin.getElem_fin]
  exact ⟨_, execRet_of_live live, top, below,
    (s.drop_frame.mono (by simp)).trans ((State.setPc_frame _ _).mono (by simp))⟩

/-- Settles O17: a push of the advanced `pc`, then a write of `pc`. -/
theorem callPushesTheReturnAddress : Obligations.CallPushesTheReturnAddress :=
  ⟨exec_call_of_room, rowEncodes_call.decodesAs⟩

/-- Settles O18: a pop that leaves the stack's slots alone, then a write of `pc`. -/
theorem returnPopsTheReturnAddress : Obligations.ReturnPopsTheReturnAddress :=
  ⟨exec_ret_of_live, rowEncodes_ret.decodesAs⟩

/-- Where the decoded instruction answers, a step answers that state, ticked if the host asks for it (R108). -/
theorem step_of_exec {s t : State} {i : Instr} (running : s.Running) (decoded : decode s.fetchWord = .instr i)
    (answer : exec i s.hostActs.begin.advance = .next t) : step s = .next (t.tickIf s.nextInput.timerTick) :=
  (State.stepOp_of_instr (s := s.hostActs) _ running decoded).trans (congrArg (tickAfter _) answer)

/-- A call's step leaves the address of the next word in the slot at its `sp`. -/
theorem step_call_stack {s : State} {nnn : Addr} (running : s.Running) (decoded : decode s.fetchWord = .instr (.call nnn))
    (room : s.sp.val < 16) : ∃ t, step s = .next t ∧ t.stack[(⟨s.sp.val, room⟩ : Fin 16)] = s.pc + 2 := by
  obtain ⟨t, answer, -, -, stack, -⟩ := exec_call_of_room nnn s.hostActs.begin.advance room
  have pushed : t.stack[(⟨s.sp.val, room⟩ : Fin 16)] = s.pc + 2 := (stack _).trans (if_pos rfl)
  exact ⟨_, step_of_exec running decoded answer, (t.tickIf_frame _ .stack (by simp) _).trans pushed⟩

/-- A return's step goes to the address in the top slot and pops it. -/
theorem step_ret_pc_sp {s : State} {j : Fin 16} (running : s.Running) (decoded : decode s.fetchWord = .instr .ret)
    (level : s.sp.val = j.val + 1) : ∃ t, step s = .next t ∧ t.pc = s.stack[j] ∧ t.sp.val = j.val := by
  obtain ⟨t, answer, pc, sp, -⟩ := exec_ret_of_live s.hostActs.begin.advance j level
  have tick := t.tickIf_frame s.nextInput.timerTick
  exact ⟨_, step_of_exec running decoded answer, (tick .pc (by simp)).trans pc,
    (congrArg Fin.val (tick .sp (by simp))).trans sp⟩

/-- Along steps during which `sp` stays above a slot, the slot is live at each of them and keeps its value. -/
theorem StepsWhile.stack_eq {j : Fin 16} {s t : State} (steps : StepsWhile (fun v => j.val < v.sp.val) s t) :
    t.stack[j] = s.stack[j] := by
  induction steps with
  | here _ => rfl
  | more above first _ ih =>
    obtain ⟨-, -, live, -⟩ := stepKeepsLiveStackSlots _ _ first
    exact ih.trans (live j above)

/-- Settles O19: the call puts the return address into the slot at its `sp`, the slot stays live up to the return, and
the return takes it from there. -/
theorem callThenReturn : Obligations.CallThenReturn := by
  intro s nnn running decoded room
  obtain ⟨t, call, pushed⟩ := step_call_stack running decoded room
  refine ⟨t, call, fun u steps running_u decoded_u level => ?_⟩
  have kept : u.stack[(⟨s.sp.val, room⟩ : Fin 16)] = t.stack[(⟨s.sp.val, room⟩ : Fin 16)] := StepsWhile.stack_eq steps
  obtain ⟨r, ret, pc, sp⟩ := step_ret_pc_sp (j := ⟨s.sp.val, room⟩) running_u decoded_u level
  exact ⟨r, ret, pc.trans (kept.trans pushed), Fin.ext sp⟩

/-! ## Skips on register values (R124 to R128) -/

/-- A skip adds 2 to the advanced `pc` exactly when its comparison holds, and changes nothing else (R128). -/
theorem State.skipIf_answers (s : State) {taken : Bool} {holds : Prop} [Decidable holds] (test : taken = true ↔ holds) :
    (s.skipIf taken).pc = (if holds then s.pc + 2 else s.pc) ∧ KeepsAllBut [.pc] s (s.skipIf taken) := by
  refine ⟨?_, (s.skipIf_writesOnly taken).frame⟩
  rw [State.skipIf_eq, State.setPc_pc]
  exact if_congr test rfl rfl

/-- A word 5xyN or 9xyN with N other than 0 is in the unknown space (R86). -/
theorem unknownSpace_of_low_nibble {w : Word} (family : fieldOp w = 5 ∨ fieldOp w = 9) (nibble : fieldN w ≠ 0) :
    UnknownSpace w := by
  rcases family with op | op
  · exact .inr (.inl ⟨op, nibble⟩)
  · exact .inr (.inr (.inr (.inl ⟨op, nibble⟩)))

/-- Settles O20: the four are one skip, each with its own test. -/
theorem skipsOnRegisterValues : Obligations.SkipsOnRegisterValues :=
  ⟨fun _ _ s => ⟨_, rfl, s.skipIf_answers beq_iff_eq⟩, fun _ _ s => ⟨_, rfl, s.skipIf_answers bne_iff_ne⟩,
    fun _ _ s => ⟨_, rfl, s.skipIf_answers beq_iff_eq⟩, fun _ _ s => ⟨_, rfl, s.skipIf_answers bne_iff_ne⟩,
    rowEncodes_seImm.decodesAs, rowEncodes_sneImm.decodesAs, rowEncodes_seReg.decodesAs, rowEncodes_sneReg.decodesAs,
    fun _ family nibble => decode_of_unknownSpace (unknownSpace_of_low_nibble family nibble)⟩

end Sys2Proof.Machine

/-!
The statements of spec/42_alu.md: register loads, logic, the arithmetic that computes a flag, and the random byte.
-/

namespace Sys2Proof.Machine

/-! ## One register written (R140 to R145) -/

/-- A write of one register leaves every other register and part as before. -/
theorem State.setReg_others (s : State) (x : Reg) (v : Byte) :
    (∀ r, r ≠ x → (s.setReg x v).reg r = s.reg r) ∧ KeepsAllBut [.V] s (s.setReg x v) :=
  ⟨fun r => s.reg_setReg_other x r v, s.setReg_frame x v⟩

theorem State.toNat_reg_setReg_same (s : State) (x : Reg) (v : Byte) : ((s.setReg x v).reg x).toNat = v.toNat :=
  congrArg BitVec.toNat (s.reg_setReg_same x v)

theorem State.getLsbD_reg_setReg_same (s : State) (x : Reg) (v : Byte) (k : Nat) :
    ((s.setReg x v).reg x).getLsbD k = v.getLsbD k :=
  congrArg (BitVec.getLsbD · k) (s.reg_setReg_same x v)

/-- Settles O21: each is one write of Vx, and the cycle runs it past the advance. -/
theorem loadAndAddImmediate : Obligations.LoadAndAddImmediate :=
  ⟨fun x kk s => ⟨_, rfl, s.reg_setReg_same x kk, s.setReg_others x _⟩,
    fun x kk _ running decoded => ⟨_, State.cycle_of_instr running decoded, State.reg_setReg_same _ x kk, rfl⟩,
    fun x _ s => ⟨_, rfl, (s.toNat_reg_setReg_same x _).trans (BitVec.toNat_add _ _), s.setReg_others x _⟩,
    fun x y s => ⟨_, rfl, s.reg_setReg_same x (s.reg y), s.setReg_others x _⟩,
    rowEncodes_ldImm.decodesAs, rowEncodes_addImm.decodesAs, rowEncodes_ldReg.decodesAs⟩

/-- Settles O22: each is one write of Vx, with the operation taken bit by bit. -/
theorem logicIsBitwise : Obligations.LogicIsBitwise :=
  ⟨fun x _ s => ⟨_, rfl, fun k _ => (s.getLsbD_reg_setReg_same x _ k).trans BitVec.getLsbD_or, s.setReg_others x _⟩,
    fun x _ s => ⟨_, rfl, fun k _ => (s.getLsbD_reg_setReg_same x _ k).trans BitVec.getLsbD_and, s.setReg_others x _⟩,
    fun x _ s => ⟨_, rfl, fun k _ => (s.getLsbD_reg_setReg_same x _ k).trans BitVec.getLsbD_xor, s.setReg_others x _⟩,
    rowEncodes_orReg.decodesAs, rowEncodes_andReg.decodesAs, rowEncodes_xorReg.decodesAs⟩

/-! ## A flag and then a result (R146, R147) -/

/-- The result is written last, so that it stands in Vx at x = 0xF too. -/
theorem State.toNat_reg_setFlagThenReg_same (s : State) (flag : Bool) (x : Reg) (result : Byte) :
    ((s.setFlagThenReg flag x result).reg x).toNat = result.toNat :=
  State.toNat_reg_setReg_same _ x result

/-- The flag stands in VF where the result does not overwrite it. -/
theorem State.reg_setFlagThenReg_VF (s : State) (flag : Bool) {x : Reg} (result : Byte) (ne : x ≠ VF) :
    (s.setFlagThenReg flag x result).reg VF = flagByte flag := by
  rw [State.reg_setFlagThenReg, if_neg ne.symm, if_pos rfl]

/-- A flag and a result leave every other register and part as before. -/
theorem State.setFlagThenReg_others (s : State) (flag : Bool) (x : Reg) (result : Byte) :
    (∀ r, r ≠ x → r ≠ VF → (s.setFlagThenReg flag x result).reg r = s.reg r) ∧
      KeepsAllBut [.V] s (s.setFlagThenReg flag x result) := by
  refine ⟨fun r ne_x ne_VF => ?_, (s.setFlagThenReg_writesOnly flag x result).frame⟩
  rw [State.reg_setFlagThenReg, if_neg ne_x, if_neg ne_VF]

/-! ## The flags and the results as numbers (R148 to R152) -/

/-- A comparison as a flag. -/
theorem flagByte_decide (p : Prop) [Decidable p] : flagByte (decide p) = if p then 1 else 0 :=
  if_congr decide_eq_true_iff rfl rfl

theorem toNat_flagByte (flag : Bool) : (flagByte flag).toNat = flag.toNat := by
  cases flag <;> rfl

/-- Bit `i` of a byte as a flag. -/
theorem toNat_flagByte_getLsbD (v : Byte) (i : Nat) : (flagByte (v.getLsbD i)).toNat = v.toNat / 2 ^ i % 2 := by
  rw [toNat_flagByte, BitVec.getLsbD, Nat.toNat_testBit]

theorem toNat_flagByte_lowBitFlag (v : Byte) : (flagByte (lowBitFlag v)).toNat = v.toNat % 2 := by
  rw [lowBitFlag, toNat_flagByte_getLsbD, pow_zero, Nat.div_one]

/-- A byte is below 256, so that halving it seven times leaves its bit 7. -/
theorem toNat_flagByte_highBitFlag (v : Byte) : (flagByte (highBitFlag v)).toNat = v.toNat / 128 := by
  have := v.isLt
  rw [highBitFlag, toNat_flagByte_getLsbD]
  omega

/-- A difference borrows 256. -/
theorem toNat_byte_sub (a b : Byte) : (a - b).toNat = (a.toNat + 256 - b.toNat) % 256 := by
  have := b.isLt
  rw [BitVec.toNat_sub]
  omega

theorem toNat_byte_shiftRight_one (v : Byte) : (v >>> 1).toNat = v.toNat / 2 := by
  rw [BitVec.toNat_ushiftRight, Nat.shiftRight_eq_div_pow, pow_one]

theorem toNat_byte_shiftLeft_one (v : Byte) : (v <<< 1).toNat = v.toNat * 2 % 256 := by
  rw [BitVec.toNat_shiftLeft, Nat.shiftLeft_eq, pow_one]

/-- Settles O24: each is a flag and then a result, both of the operands from before the instruction. -/
theorem flagArithmetic : Obligations.FlagArithmetic := by
  intro x y s
  have value := s.toNat_reg_setFlagThenReg_same (x := x)
  have others := s.setFlagThenReg_others (x := x)
  refine ⟨⟨_, rfl, (value _ _).trans (BitVec.toNat_add _ _), fun ne => ?_, others _ _⟩,
    ⟨_, rfl, (value _ _).trans (toNat_byte_sub _ _), fun ne => ?_, others _ _⟩,
    ⟨_, rfl, (value _ _).trans (toNat_byte_shiftRight_one _), fun ne => ?_, others _ _⟩,
    ⟨_, rfl, (value _ _).trans (toNat_byte_sub _ _), fun ne => ?_, others _ _⟩,
    ⟨_, rfl, (value _ _).trans (toNat_byte_shiftLeft_one _), fun ne => ?_, others _ _⟩⟩ <;>
    rw [s.reg_setFlagThenReg_VF _ _ ne]
  · exact flagByte_decide _
  · exact flagByte_decide _
  · exact toNat_flagByte_lowBitFlag _
  · exact flagByte_decide _
  · exact toNat_flagByte_highBitFlag _

/-- The flag of a comparison is 1 exactly when the comparison holds, and 0 else. -/
theorem eq_one_iff_of_eq_flag {v : Byte} {p : Prop} [Decidable p] (flag : v = if p then 1 else 0) :
    (v = 1 ↔ p) ∧ (v = 0 ∨ v = 1) := by
  by_cases holds : p <;> simp [flag, holds]

/-- Settles O23: for x other than 0xF they are what `FlagArithmetic` says of the flags and of the sum. -/
theorem addAndSubtractLaws : Obligations.AddAndSubtractLaws := by
  intro x y s ne
  obtain ⟨⟨t, add, sum, carry, -⟩, ⟨u, sub, -, greater, -⟩, -⟩ := flagArithmetic x y s
  obtain ⟨carry_iff, carry_bit⟩ := eq_one_iff_of_eq_flag (carry ne)
  exact ⟨⟨t, add, carry_iff, carry_bit, sum⟩, u, sub, eq_one_iff_of_eq_flag (greater ne)⟩

/-! ## The random byte (R160, R161) -/

/-- A draw uses up the first byte the host has supplied. -/
theorem Rng.draw_of_supplied {r : Rng} {b : Byte} {rest : List Byte} (h : r.supplied = b :: rest) :
    r.draw = (b, { r with supplied := rest }) := by
  simp only [Rng.draw, h]

/-- Where the host has supplied none, a draw takes the free value at the counter, and counts. -/
theorem Rng.draw_of_empty {r : Rng} (h : r.supplied = []) :
    r.draw = (Config.randomByte r.drawn, { supplied := [], drawn := r.drawn + 1 }) := by
  simp only [Rng.draw, h]

/-- Settles O25: the source moves on, and the drawn byte goes into Vx under the mask. -/
theorem randomByteIsMasked : Obligations.RandomByteIsMasked := by
  intro x kk s
  have written := writesOnly_of_exec (i := .rnd x kk) (s := s) rfl
  refine ⟨s.rng.draw.1, _, rfl, fun k _ => (State.getLsbD_reg_setReg_same _ x _ k).trans BitVec.getLsbD_and,
    fun b rest supplied => ?_, fun empty => ?_, written.reg, written.frame⟩
  · have drawn := Rng.draw_of_supplied supplied
    exact ⟨congrArg Prod.fst drawn, congrArg (·.2.supplied) drawn⟩
  · have drawn := Rng.draw_of_empty empty
    exact ⟨congrArg Prod.fst drawn, congrArg Prod.snd drawn⟩

end Sys2Proof.Machine

/-!
The statements of spec/43_index_memory.md: what `I` is loaded with and what is added to it, the digits of Fx33, the block
store and the block load, and the glyph a draw finds where Fx29 has pointed `I`.
-/

namespace Sys2Proof.Machine

/-! ## The block store and the block load (R178 to R180) -/

/-- Outside its bytes a block store leaves memory as it was, and it changes no other part. -/
theorem State.storeBlock_others (s : State) (a : Nat) (bytes : List Byte) :
    (∀ c : Nat, (∀ i < bytes.length, c % 4096 ≠ (a + i) % 4096) → (s.storeBlock a bytes).memRead c = s.memRead c) ∧
      KeepsAllBut [.memory] s (s.storeBlock a bytes) :=
  ⟨fun c => s.memRead_storeBlock_outside a c bytes, s.storeBlock_frame a bytes⟩

/-- Settles O30: a store of the bytes V0..Vx, which are no more than memory holds. -/
theorem blockStore : Obligations.BlockStore := by
  refine ⟨fun x s => ⟨_, rfl, fun r => s.memRead_storeBlock_regBlock, ?_⟩, rowEncodes_ldMemStore.decodesAs⟩
  have others := s.storeBlock_others s.base (s.regBlock x)
  simp only [State.regBlock_length, Nat.lt_succ_iff] at others
  exact others

/-- A block load of the bytes at `a` into V0..Vx takes each register's byte from its place in the block. -/
theorem State.reg_loadRegs_readBlock (s : State) (x r : Reg) (a : Nat) :
    (s.loadRegs 0 (s.readBlock a (x.val + 1))).reg r = if r ≤ x then s.memRead (a + r.val) else s.reg r := by
  have loaded : (0 ≤ r.val ∧ r.val - 0 < (s.readBlock a (x.val + 1)).length) ↔ r ≤ x := by
    rw [State.readBlock_length, Fin.le_def]
    omega
  rw [State.reg_loadRegs]
  by_cases le : r ≤ x
  · rw [dif_pos (loaded.mpr le), if_pos le, State.readBlock_getElem, Nat.sub_zero]
  · rw [dif_neg (mt loaded.mp le), if_neg le]

/-- Settles O31: a load of the bytes from `I` on into the registers from V0 on. -/
theorem blockLoad : Obligations.BlockLoad :=
  ⟨fun x s => ⟨_, rfl, fun r => s.reg_loadRegs_readBlock x r s.base, s.loadRegs_frame 0 _⟩,
    rowEncodes_ldMemLoad.decodesAs⟩

/-- Settles O32: the store puts Vr at `I + r` and keeps `I`, and the load takes Vr from there. -/
theorem storeThenLoadRestores : Obligations.StoreThenLoadRestores := by
  intro x s
  obtain ⟨t, store, stored, -, frame⟩ := blockStore.1 x s
  have index : t.I = s.I := frame .I (by simp)
  refine ⟨t, store, fun u sameIndex sameBytes => ?_⟩
  obtain ⟨v, load, loaded, -⟩ := blockLoad.1 x u
  refine ⟨v, load, fun r le => ?_⟩
  calc v.reg r = u.memRead (u.I.toNat + r.val) := (loaded r).trans (if_pos le)
    _ = t.memRead (t.I.toNat + r.val) := by rw [sameIndex, sameBytes r.val le]
    _ = s.reg r := by rw [index, stored r le]

/-! ## The decimal digits (R177) -/

@[simp] theorem bcdDigits_length (v : Byte) : (bcdDigits v).length = 3 := rfl

/-- Settles O29: a store of three bytes, which as numbers are the digits. -/
theorem bcdStoresTheDigits : Obligations.BcdStoresTheDigits := by
  refine ⟨fun x s => ⟨_, rfl, ?_⟩, rowEncodes_ldB.decodesAs⟩
  have read := s.memRead_storeBlock_bcdDigits (s.reg x)
  have digits := map_toNat_bcdDigits (s.reg x)
  simp only [bcdDigits, List.map_cons, List.map_nil, List.cons.injEq, and_true] at digits
  obtain ⟨hundreds, tens, units⟩ := digits
  exact ⟨(congrArg BitVec.toNat (read 0 (by simp))).trans hundreds,
    (congrArg BitVec.toNat (read 1 (by simp))).trans tens,
    (congrArg BitVec.toNat (read 2 (by simp))).trans units, s.storeBlock_others s.base (bcdDigits (s.reg x))⟩

/-! ## Loads of `I` and additions to it (R172 to R175) -/

/-- The largest product, 255 * 5, fits a word, so that Fx29 keeps the whole of it (R175). -/
theorem toNat_ofNat_byte_mul_five (v : Byte) : (BitVec.ofNat 16 (v.toNat * 5)).toNat = v.toNat * 5 := by
  have := v.isLt
  rw [BitVec.toNat_ofNat, Nat.mod_eq_of_lt (by omega)]

/-- What Fx29 does (R175). -/
theorem exec_ldF (x : Reg) (s : State) :
    ∃ t, exec (.ldF x) s = .next t ∧ t.I.toNat = (s.reg x).toNat * 5 ∧ KeepsAllBut [.I] s t :=
  ⟨_, rfl, toNat_ofNat_byte_mul_five (s.reg x), s.setI_frame _⟩

/-- Settles O26: both are one write of `I`. -/
theorem indexLoads : Obligations.IndexLoads :=
  ⟨fun nnn s => ⟨_, rfl, toNat_addrWord nnn, s.setI_frame _⟩, exec_ldF, rowEncodes_ldI.decodesAs,
    rowEncodes_ldF.decodesAs⟩

/-- The sum of Fx1E is taken at 16 bits (R173). -/
theorem toNat_add_byteWord (w : Word) (v : Byte) : (w + byteWord v).toNat = (w.toNat + v.toNat) % 65536 := by
  rw [BitVec.toNat_add, toNat_byteWord]

/-- Settles O27: under the decided parameter the write of `I` is all. -/
theorem addToIndex : Obligations.AddToIndex :=
  ⟨fun x s => ⟨_, rfl, toNat_add_byteWord s.I (s.reg x), s.setI_frame _⟩, rowEncodes_addI.decodesAs⟩

/-- Settles O28: the write of `I`, then a write of VF with the flag of the `I` and Vx from before both. -/
theorem addToIndexWithFlag : Obligations.AddToIndexWithFlag := by
  intro x s
  have flag : (addIUnder true x s).reg VF = flagByte (indexFlag s.I (s.reg x)) := State.reg_setReg_same _ VF _
  obtain ⟨others, flagFrame⟩ := (s.setI (s.I + byteWord (s.reg x))).setReg_others VF (flagByte _)
  exact ⟨toNat_add_byteWord s.I (s.reg x), flag.trans (flagByte_decide _), others,
    ((s.setI_frame _).mono (by simp)).trans (flagFrame.mono (by simp))⟩

/-! ## The glyph of a digit (R176) -/

/-- What a draw does to every pixel: XOR with the bit of the rows at `I` that addresses it (R191). -/
theorem exec_drw_display (x y : Reg) {n : Nat} (s : State) (hn : n ≤ 32) :
    ∃ t, exec (.drw x y n) s = .next t ∧ ∀ (col : Fin 64) (row : Fin 32), t.display.get col row =
      (spriteBit (s.readBlock s.base n) (s.startCol x) (s.startRow y) col row ^^ s.display.get col row) :=
  ⟨_, rfl, drawRows_get _ (by rwa [State.readBlock_length]) _ _ _⟩

/-- A sprite of `n` bytes at `a`, drawn at the origin, addresses a pixel with the bit at that very row and column. -/
theorem spriteBit_readBlock_origin (s : State) (a n : Nat) (col : Fin 64) (row : Fin 32) :
    spriteBit (s.readBlock a n) 0 0 col row =
      (decide (row.val < n ∧ col.val < 8) && (s.memRead (a + row.val)).getLsbD (7 - col.val)) := by
  have spriteRow : (row.val + 32 - 0 % 32) % 32 = row.val := by omega
  have spriteCol : (col.val + 64 - 0 % 64) % 64 = col.val := by omega
  simp only [spriteBit, spriteRow, spriteCol, State.readBlock_length]
  by_cases inside : row.val < n
  · rw [List.getD_eq_getElem _ _ (by rwa [State.readBlock_length]), State.readBlock_getElem]
  · simp [inside]

/-- Settles O38: Fx29 points `I` at the digit's five bytes of the font, and the draw takes its rows from there. -/
theorem glyphOfADigit : Obligations.GlyphOfADigit := by
  intro x d s digit value font
  obtain ⟨t, pointed, index, frame⟩ := exec_ldF x s
  refine ⟨t, pointed, fun x' y' zeroCol zeroRow => ?_⟩
  obtain ⟨u, drawn, pixels⟩ := exec_drw_display x' y' (n := 5) t (by decide)
  refine ⟨u, drawn, fun col row => ?_⟩
  have startCol : t.startCol x' = 0 := by rw [State.startCol, zeroCol]; rfl
  have startRow : t.startRow y' = 0 := by rw [State.startRow, zeroRow]; rfl
  have address : t.base = 5 * d := by rw [State.base, index, value, Nat.mul_comm]
  rw [pixels, startCol, startRow, address, spriteBit_readBlock_origin, frame .display (by simp) col row]
  by_cases inside : row.val < 5
  · rw [frame .memory (by simp), font _ (by omega)]
  · simp [inside]

end Sys2Proof.Machine

/-!
The statements of spec/44_display.md: the clear, what a draw does to the pixels and to VF, the second draw of one sprite,
and who writes `redraw`.
-/

namespace Sys2Proof.Machine

/-! ## The clear (R190) -/

/-- Settles O35: one replacement of the display, by the clear one. -/
theorem clearDisplay : Obligations.ClearDisplay :=
  ⟨fun s => ⟨_, rfl, Display.get_clear, rfl, s.redrawWith_frame _⟩, rowEncodes_cls.decodesAs⟩

/-! ## The draw (R191 to R194) -/

/-- The sprite bit that addresses a pixel, found by its place in the sprite: as a sprite is no wider and no higher than
the screen, a row and a column of it that wrap onto the pixel are the row and the column `spriteBit` computes. -/
theorem spriteBit_readBlock_iff (s : State) (a : Nat) {n : Nat} (hn : n ≤ 32) (x0 y : Nat) (col : Fin 64) (row : Fin 32) :
    spriteBit (s.readBlock a n) x0 y col row = true ↔
      ∃ r < n, ∃ c < 8, (s.memRead (a + r)).getLsbD (7 - c) = true ∧
        col.val = (x0 + c) % 64 ∧ row.val = (y + r) % 32 := by
  have hcol := col.isLt
  have hrow := row.isLt
  have byte : ∀ r < n, (s.readBlock a n).getD r 0 = s.memRead (a + r) := fun r hr => by
    rw [List.getD_eq_getElem _ _ (by rwa [State.readBlock_length]), State.readBlock_getElem]
  simp only [spriteBit, State.readBlock_length, Bool.and_eq_true, decide_eq_true_eq]
  constructor
  · rintro ⟨⟨hr, hc⟩, bit⟩
    rw [byte _ hr] at bit
    exact ⟨_, hr, _, hc, bit, by omega, by omega⟩
  · rintro ⟨r, hr, c, hc, bit, atCol, atRow⟩
    have spriteRow : (row.val + 32 - y % 32) % 32 = r := by omega
    have spriteCol : (col.val + 64 - x0 % 64) % 64 = c := by omega
    rw [spriteRow, spriteCol, byte r hr]
    exact ⟨⟨hr, hc⟩, bit⟩

/-- The bits of the rows at `I` are those of the draw (R191). -/
theorem spriteBit_iff_spriteAddresses (s : State) (x y : Reg) {n : Nat} (hn : n ≤ 32) (col : Fin 64) (row : Fin 32) :
    spriteBit (s.readBlock s.base n) (s.startCol x) (s.startRow y) col row = true ↔ SpriteAddresses s x y n col row :=
  spriteBit_readBlock_iff s s.base hn (s.startCol x) (s.startRow y) col row

/-- What a draw does to every pixel (R191, R192). -/
theorem State.drawn_get (s : State) (x y : Reg) {n : Nat} (hn : n ≤ 32) (col : Fin 64) (row : Fin 32) :
    (SpriteAddresses s x y n col row → (s.drawn x y n).1.get col row = !s.display.get col row) ∧
      (¬ SpriteAddresses s x y n col row → (s.drawn x y n).1.get col row = s.display.get col row) := by
  rw [State.drawn, drawRows_get _ (by rwa [State.readBlock_length]), ← spriteBit_iff_spriteAddresses s x y hn]
  exact ⟨fun bit => by rw [bit, Bool.true_xor], fun noBit => by rw [Bool.eq_false_of_not_eq_true noBit, Bool.false_xor]⟩

/-- The collision of a draw: an addressed pixel was 1 (R194). -/
theorem State.drawn_collision (s : State) (x y : Reg) {n : Nat} (hn : n ≤ 32) :
    (s.drawn x y n).2 = true ↔
      ∃ (col : Fin 64) (row : Fin 32), SpriteAddresses s x y n col row ∧ s.display.get col row = true := by
  rw [State.drawn, drawRows_collision _ (by rwa [State.readBlock_length])]
  simp only [spriteBit_iff_spriteAddresses s x y hn, Bool.false_eq_true, false_or]

/-- Settles O36: the drawn pixels, then the collision written to VF. -/
theorem drawFlipsTheAddressedPixels : Obligations.DrawFlipsTheAddressedPixels := by
  refine ⟨fun x y n s hn => ?_, rowEncodes_drw.decodesAs⟩
  have collision := s.drawn_collision x y (n := n) (by omega)
  have flag := (s.redrawWith (s.drawn x y n).1).reg_setReg_same VF (flagByte (s.drawn x y n).2)
  obtain ⟨others, flagFrame⟩ := (s.redrawWith (s.drawn x y n).1).setReg_others VF (flagByte (s.drawn x y n).2)
  refine ⟨_, rfl, s.drawn_get x y (by omega), fun hit => ?_, fun miss => ?_, rfl, others,
    ((s.redrawWith_frame _).mono (by simp)).trans (flagFrame.mono (by simp))⟩
  · exact flag.trans (congrArg flagByte (collision.mpr hit))
  · exact flag.trans (congrArg flagByte (Bool.eq_false_of_not_eq_true (mt collision.mp miss)))

/-! ## The second draw (R195) -/

/-- What a draw addresses is a matter of its position, `I` and the sprite's bytes alone. -/
theorem spriteAddresses_congr {s u : State} {x y : Reg} {n : Nat} (hx : u.reg x = s.reg x) (hy : u.reg y = s.reg y)
    (hI : u.I = s.I) (bytes : ∀ r < n, u.memRead (s.I.toNat + r) = s.memRead (s.I.toNat + r)) (col : Fin 64)
    (row : Fin 32) : SpriteAddresses u x y n col row ↔ SpriteAddresses s x y n col row := by
  unfold SpriteAddresses
  rw [hx, hy, hI]
  exact exists_congr fun r => and_congr_right fun hr => by rw [bytes r hr]

/-- Settles O37: with its position outside VF, the second draw addresses the pixels of the first and flips each of them
back, so that it meets a 1 where the first met a 0. -/
theorem drawingTwiceRestoresTheDisplay : Obligations.DrawingTwiceRestoresTheDisplay := by
  intro x y n s hn hx hy
  obtain ⟨t, firstDraw, firstPixels, -, -, -, others, frame⟩ := drawFlipsTheAddressedPixels.1 x y n s hn
  have index : t.I = s.I := frame .I (by simp)
  have memory : ∀ a, t.memRead a = s.memRead a := frame .memory (by simp)
  refine ⟨t, firstDraw, fun u display sameX sameY sameI bytes => ?_⟩
  obtain ⟨v, secondDraw, secondPixels, hit, miss, -⟩ := drawFlipsTheAddressedPixels.1 x y n u hn
  have addressed : ∀ col row, SpriteAddresses u x y n col row ↔ SpriteAddresses s x y n col row :=
    spriteAddresses_congr (sameX.trans (others x hx)) (sameY.trans (others y hy)) (sameI.trans index)
      (fun r hr => index ▸ (bytes r hr).trans (memory _))
  have flipped : ∀ col row, SpriteAddresses s x y n col row → u.display.get col row = !s.display.get col row :=
    fun col row h => (display col row).trans ((firstPixels col row).1 h)
  refine ⟨v, secondDraw, fun col row => ?_, ?_⟩
  · obtain ⟨flips, keeps⟩ := secondPixels col row
    rw [addressed] at flips keeps
    by_cases h : SpriteAddresses s x y n col row
    · rw [flips h, flipped col row h, Bool.not_not]
    · rw [keeps h, display, (firstPixels col row).2 h]
  · have meets : (∃ col row, SpriteAddresses u x y n col row ∧ u.display.get col row = true) ↔
        ∃ col row, SpriteAddresses s x y n col row ∧ s.display.get col row = false :=
      exists₂_congr fun col row => by
        rw [addressed]
        exact and_congr_right fun h => by rw [flipped col row h, Bool.not_eq_true']
    rw [← meets]
    refine ⟨fun one => by_contra fun noHit => ?_, hit⟩
    rw [miss noHit] at one
    exact absurd one (by decide)

/-! ## Who writes `redraw` (R196) -/

theorem redraw_mem_writes_iff (i : Instr) : .redraw ∈ writes i ↔ i = .cls ∨ ∃ x y n, i = .drw x y n := by
  cases i <;> simp [writes]

/-- The clear and the draw set it. -/
theorem redraw_of_exec_writer {i : Instr} {s t : State} (h : exec i s = .next t)
    (writer : i = .cls ∨ ∃ x y n, i = .drw x y n) : t.redraw = true := by
  obtain rfl | ⟨x, y, n, rfl⟩ := writer
  · exact Host.Outcome.next.inj h ▸ rfl
  · exact Host.Outcome.next.inj h ▸ rfl

/-- Every other instruction keeps it. -/
theorem redraw_of_exec_other {i : Instr} {s t : State} (h : exec i s = .next t)
    (other : ¬ (i = .cls ∨ ∃ x y n, i = .drw x y n)) : t.redraw = s.redraw :=
  (writesOnly_of_exec h).frame .redraw (mt (redraw_mem_writes_iff i).mp other)

theorem State.clearRedraw_frame (s : State) : KeepsAllBut [.redraw] s s.clearRedraw := by
  intro p hp
  cases p <;> simp_all [Part.Same, State.memRead, State.reg]

/-- Settles O39: the two instructions set it, no other has it among the parts it writes. -/
theorem redrawIsSetByClearAndDraw : Obligations.RedrawIsSetByClearAndDraw := by
  refine ⟨fun s => ⟨_, rfl, rfl⟩, fun x y n s => ⟨_, rfl, rfl⟩, fun i s t h => ?_, fun s => ⟨rfl, s.clearRedraw_frame⟩⟩
  by_cases writer : i = .cls ∨ ∃ x y n, i = .drw x y n
  · exact ⟨fun _ => redraw_of_exec_writer h writer, fun _ => writer⟩
  · have kept := redraw_of_exec_other h writer
    exact ⟨kept.trans, fun changed => absurd kept changed⟩

end Sys2Proof.Machine

/-!
The statements of spec/45_keys_timers.md: the skips on a key, the wait for one, the moves between a register and a timer,
and the fault of a key test on a value that is no key's number.
-/

namespace Sys2Proof.Machine

/-! ## The key tests (R200 to R202) -/

section
variable {s : State} {x : Reg} (level : Bool) (w : Word)

/-- A test of a register that holds a key's number is a skip on that key's level. -/
theorem State.testKey_of_key {k : Key} (named : (s.reg x).toNat = k.val) :
    s.testKey x level w = s.skipIf (s.keypad[k] == level) := by
  simp only [State.testKey, (s.keyOf_some x k).mpr named]

/-- A test of a register that holds no key's number faults and records the value. -/
theorem State.testKey_of_above (above : 15 < (s.reg x).toNat) :
    s.testKey x level w = s.raiseFault .keyIndex w (some (s.reg x).toNat) := by
  simp only [State.testKey, (s.keyOf_none x).mpr above]

/-- What a test of the key `k` does to `pc`, and that it changes nothing else. -/
theorem State.testKey_answers {k : Key} (named : (s.reg x).toNat = k.val) :
    (s.testKey x level w).pc = (if s.keypad[k] = level then s.pc + 2 else s.pc) ∧
      KeepsAllBut [.pc] s (s.testKey x level w) := by
  rw [State.testKey_of_key level w named]
  exact s.skipIf_answers beq_iff_eq

/-- Past the advance, a test of no key's number leaves the state before it, with the record and the event (R224). -/
theorem State.testKey_advance_of_above (above : 15 < (s.reg x).toNat) :
    s.advance.testKey x level w = { s with
      fault := some ⟨.keyIndex, s.pc, w, some (s.reg x).toNat⟩, events := s.events ++ [.fault .keyIndex s.pc] } :=
  (State.testKey_of_above (s := s.advance) level w above).trans (s.raiseFault_advance ..)

end

/-- Settles O40: both are one key test, at the two levels. -/
theorem skipsOnKeys : Obligations.SkipsOnKeys :=
  ⟨fun _ _ _ named => ⟨_, rfl, State.testKey_answers true _ named⟩,
    fun _ _ _ named => ⟨_, rfl, State.testKey_answers false _ named⟩,
    rowEncodes_skp.decodesAs, rowEncodes_sknp.decodesAs⟩

/-- Settles O48: the test faults, and the word it records, that of the instruction, is the one fetched. -/
theorem keyIndexFaultsArePrecise : Obligations.KeyIndexFaultsArePrecise := by
  intro x s running test above
  rcases test with decoded | decoded
  all_goals
    obtain ⟨-, word⟩ := encodeOfDecode _ _ decoded
    rw [State.cycle_of_instr running decoded, ← word]
  · exact congrArg _ (State.testKey_advance_of_above true _ above)
  · exact congrArg _ (State.testKey_advance_of_above false _ above)

/-! ## The wait for a key (R204) -/

theorem toNat_ofNat_key (k : Key) : (BitVec.ofNat 8 k.val).toNat = k.val := by
  rw [BitVec.toNat_ofNat, Nat.mod_eq_of_lt (by omega)]

/-- What the wait does with `k` the lowest pressed key. -/
theorem exec_ldVxK_of_lowest (x : Reg) (k : Key) (s : State) (pressed : s.keypad[k] = true)
    (lowest : ∀ j : Key, j < k → s.keypad[j] = false) :
    ∃ t, exec (.ldVxK x) s = .next t ∧ (t.reg x).toNat = k.val ∧ (∀ r, r ≠ x → t.reg r = s.reg r) ∧
      KeepsAllBut [.V] s t :=
  ⟨_, execLdVxK_of_some x ((lowestKey_some s.keypad k).mpr ⟨pressed, lowest⟩),
    (s.toNat_reg_setReg_same x _).trans (toNat_ofNat_key k), s.setReg_others x _⟩

/-- What the wait does with every key up. -/
theorem exec_ldVxK_of_up (x : Reg) {s : State} (up : ∀ j : Key, s.keypad[j] = false) :
    exec (.ldVxK x) s = .next s.retreat :=
  execLdVxK_of_none x ((lowestKey_none s.keypad).mpr up)

/-- Settles O41: with a key pressed the wait writes one register, with none it writes `pc`. -/
theorem keyWaitTakesTheLowestKey : Obligations.KeyWaitTakesTheLowestKey :=
  ⟨exec_ldVxK_of_lowest, fun x s up => ⟨_, exec_ldVxK_of_up x up, rfl, s.setPc_frame _⟩, rowEncodes_ldVxK.decodesAs⟩

/-- Settles O43: the key that alone is pressed is the lowest, `exec` loads it past the advance, and the tick touches
neither the registers nor `pc`. -/
theorem keyWaitEnds : Obligations.KeyWaitEnds := by
  intro x k s running decoded pressed alone
  obtain ⟨t, answer, loaded, others, frame⟩ :=
    exec_ldVxK_of_lowest x k s.hostActs.begin.advance pressed (fun j lt => alone j (ne_of_lt lt))
  have tick := t.tickIf_frame s.nextInput.timerTick
  have registers : ∀ r, (t.tickIf s.nextInput.timerTick).reg r = t.reg r := tick .V (by simp)
  have pc : t.pc = s.pc + 2 := frame .pc (by simp)
  exact ⟨_, step_of_exec running decoded answer, (congrArg _ (registers x)).trans loaded,
    (tick .pc (by simp)).trans pc, fun r ne => (registers r).trans (others r ne)⟩

/-! ## The wait with no key pressed, over a run (R205) -/

/-- Every key is up, and no vector the host has yet to write presses one (R237). -/
def State.KeysStayUp (s : State) : Prop :=
  (∀ j : Key, s.keypad[j] = false) ∧
    ∀ h ∈ s.inputs, ∀ keys : Keypad, h.keys = some keys → ∀ j : Key, keys[j] = false

/-- The host's next input is among those it has prepared, or the idle one, which writes no keys. -/
theorem State.nextInput_mem_or_idle (s : State) : s.nextInput ∈ s.inputs ∨ s.nextInput = .idle := by
  unfold State.nextInput
  cases s.inputs with
  | nil => exact .inr rfl
  | cons h rest => exact .inl List.mem_cons_self

/-- The host's accesses leave the keys up. -/
theorem State.KeysStayUp.hostActs {s : State} (h : s.KeysStayUp) : s.hostActs.KeysStayUp := by
  obtain ⟨up, released⟩ := h
  refine ⟨?_, fun input mem => released input (List.mem_of_mem_tail mem)⟩
  rw [State.hostActs_keypad]
  cases written : s.nextInput.keys with
  | none => exact up
  | some keys =>
    rcases s.nextInput_mem_or_idle with mem | idle
    · exact released _ mem keys written
    · rw [idle] at written
      cases written

/-- What changes neither the keypad nor the host's inputs leaves the keys up. -/
theorem State.KeysStayUp.of_frame {parts : List Part} {s t : State} (h : s.KeysStayUp) (frame : KeepsAllBut parts s t)
    (hkeypad : .keypad ∉ parts := by simp) (hinputs : .inputs ∉ parts := by simp) : t.KeysStayUp := by
  obtain ⟨up, released⟩ := h
  have inputs : t.inputs = s.inputs := frame .inputs hinputs
  exact ⟨fun j => (frame .keypad hkeypad j).trans (up j), inputs ▸ released⟩

/-- A change of parts other than memory and `pc` leaves the word that is fetched. -/
theorem State.fetchWord_of_frame {parts : List Part} {s t : State} (frame : KeepsAllBut parts s t)
    (hmemory : .memory ∉ parts := by simp) (hpc : .pc ∉ parts := by simp) : t.fetchWord = s.fetchWord := by
  have memory : ∀ a, t.memRead a = s.memRead a := frame .memory hmemory
  have pc : t.pc = s.pc := frame .pc hpc
  simp only [State.fetchWord, memory, pc]

/-- A wait with every key up undoes its own advance: its step is what stands around `exec`. -/
theorem step_of_keyWait {s : State} {x : Reg} (running : s.Running) (decoded : decode s.fetchWord = .instr (.ldVxK x))
    (stay : s.KeysStayUp) : step s = .next (s.hostActs.begin.tickIf s.nextInput.timerTick) := by
  obtain ⟨up, -⟩ := stay.hostActs
  have spins : exec (.ldVxK x) s.hostActs.begin.advance = .next s.hostActs.begin :=
    (exec_ldVxK_of_up x (s := s.hostActs.begin.advance) up).trans (congrArg _ (State.retreat_advance _))
  exact step_of_exec running decoded spins

/-- What stands around `exec` in a step leaves the keys up. -/
theorem State.KeysStayUp.tickIf_hostActs_begin {s : State} (h : s.KeysStayUp) (timerTick : Bool) :
    (s.hostActs.begin.tickIf timerTick).KeysStayUp :=
  (h.hostActs.of_frame s.hostActs.begin_frame).of_frame (State.tickIf_frame _ _)

/-- However many steps are taken, the machine stays at the wait and the keys stay up. -/
theorem run_of_keyWait {s : State} {x : Reg} (running : s.Running) (decoded : decode s.fetchWord = .instr (.ldVxK x))
    (stay : s.KeysStayUp) (k : Nat) :
    ∃ t, core.run k s = .next t ∧
      KeepsAllBut [.DT, .ST, .keypad, .redraw, .events, .inputs] s t ∧ t.KeysStayUp := by
  refine run_answers_of_step (fun t ⟨frame, stay_t⟩ => ?_) ⟨.refl _ s, stay⟩ k
  have running_t : t.Running := (frame .fault (by simp)).trans running
  have decoded_t : decode t.fetchWord = .instr (.ldVxK x) :=
    (congrArg decode (State.fetchWord_of_frame frame)).trans decoded
  exact ⟨_, step_of_keyWait running_t decoded_t stay_t, frame.trans t.tickIf_hostActs_begin_frame,
    stay_t.tickIf_hostActs_begin _⟩

/-- Settles O42: the run moves only what stands around `exec` moves, and of that the keypad is all up at both ends. -/
theorem keyWaitSpins : Obligations.KeyWaitSpins := by
  intro x s running decoded up released k
  obtain ⟨t, run, frame, up_t, -⟩ := run_of_keyWait running decoded ⟨up, released⟩ k
  refine ⟨t, run, fun p unmoved => ?_⟩
  by_cases keys : p = .keypad
  · exact keys ▸ fun j => (up_t j).trans (up j).symm
  · exact frame p (by simpa [keys] using unmoved)

/-! ## The timers (R203, R206, R207) -/

/-- A tick of a sound timer that stands at 1 runs it out and emits the cue (R233). -/
theorem State.tick_of_ST_one {s : State} (one : s.ST = 1) : s.tick.ST = 0 ∧ s.tick.events = s.events ++ [.toneCue] :=
  ⟨by rw [State.tick_ST, one]; rfl, by rw [State.tick_events, if_pos one]⟩

/-- Settles O44: each is one write, of Vx or of a timer, and a tick after it counts down what the timers hold. -/
theorem timerMoves : Obligations.TimerMoves :=
  ⟨fun x s => ⟨_, rfl, s.reg_setReg_same x s.DT, (State.reg_tick _ x).trans (s.reg_setReg_same x s.DT),
      s.setReg_others x _⟩,
    fun _ s => ⟨_, rfl, rfl, State.toNat_tick_DT _, s.setDT_frame _⟩,
    fun x s => ⟨_, rfl, rfl, rfl, State.tick_of_ST_one (s := s.setST (s.reg x)), s.setST_frame _⟩,
    rowEncodes_ldVxDt.decodesAs, rowEncodes_ldDt.decodesAs, rowEncodes_ldSt.decodesAs⟩

end Sys2Proof.Machine

/-!
The statements of spec/60_exceptions.md: the tick, the stack faults, the events of a step, and the invariant: memory stays
canonical, and a fault record stays true of the state it stands in.
-/

namespace Sys2Proof.Machine

/-! ## The tick (R231, R232) -/

theorem byte_eq_one_iff (v : Byte) : v = 1 ↔ v.toNat = 1 := BitVec.toNat_inj.symm

theorem State.tick_frame (s : State) : KeepsAllBut [.DT, .ST, .events] s s.tick := s.tickIf_frame true

/-- Settles O45, by what a tick does to each timer, to the events and to the rest. -/
theorem tickCountsDown : Obligations.TickCountsDown := fun s =>
  ⟨s.toNat_tick_DT, s.toNat_tick_ST, fun one => s.tick_events.trans (if_pos ((byte_eq_one_iff s.ST).mpr one)),
    fun other => s.tick_events.trans (if_neg (mt (byte_eq_one_iff s.ST).mp other)), s.tick_frame⟩

theorem State.toNat_iterate_tick_DT (s : State) (k : Nat) : (State.tick^[k] s).DT.toNat = s.DT.toNat - k := by
  induction k with
  | zero => rfl
  | succ k ih => rw [Function.iterate_succ_apply', State.toNat_tick_DT, ih, Nat.sub_sub]

theorem State.toNat_iterate_tick_ST (s : State) (k : Nat) : (State.tick^[k] s).ST.toNat = s.ST.toNat - k := by
  induction k with
  | zero => rfl
  | succ k ih => rw [Function.iterate_succ_apply', State.toNat_tick_ST, ih, Nat.sub_sub]

/-- Only the tick whose number is the sound timer's first value finds that timer at 1: a run emits the cue in that tick, if
it reaches it, and in no other. -/
theorem State.iterate_tick_events (s : State) (k : Nat) :
    (State.tick^[k] s).events = s.events ++ if 1 ≤ s.ST.toNat ∧ s.ST.toNat ≤ k then [.toneCue] else [] := by
  induction k with
  | zero => rw [if_neg (by omega), List.append_nil]; rfl
  | succ k ih =>
    have last : (State.tick^[k] s).ST = 1 ↔ s.ST.toNat = k + 1 := by
      rw [byte_eq_one_iff, State.toNat_iterate_tick_ST]
      omega
    rw [Function.iterate_succ_apply', State.tick_events, ih]
    by_cases now : s.ST.toNat = k + 1
    · rw [if_pos (last.mpr now), if_neg (by omega), if_pos (by omega), List.append_nil]
    · have same : (1 ≤ s.ST.toNat ∧ s.ST.toNat ≤ k + 1) ↔ (1 ≤ s.ST.toNat ∧ s.ST.toNat ≤ k) := by omega
      simp only [if_neg (mt last.mp now), same]

/-- Settles O46, by induction on the number of ticks. -/
theorem ticksReachZeroAndStay : Obligations.TicksReachZeroAndStay := fun s k =>
  ⟨s.toNat_iterate_tick_DT k, s.toNat_iterate_tick_ST k, s.iterate_tick_events k⟩

/-! ## The stack faults (R223) -/

/-- Where the decoded instruction faults, `exec` as a whole leaves the state it began in, with the record and the event:
the word recorded, that of the instruction, is the one fetched. -/
theorem State.cycle_of_raiseFault {s : State} {i : Instr} {kind : FaultKind} {info : Option Nat} (running : s.Running)
    (decoded : decode s.fetchWord = .instr i)
    (faults : exec i s.advance = .next (s.advance.raiseFault kind (encode i) info)) :
    s.cycle = .next { s with
      fault := some ⟨kind, s.pc, s.fetchWord, info⟩, events := s.events ++ [.fault kind s.pc] } := by
  obtain ⟨-, word⟩ := encodeOfDecode _ _ decoded
  rw [State.cycle_of_instr running decoded, faults, State.raiseFault_advance, word]

/-- Settles O47: the full stack has no room for the call, and the empty one no entry for the return. -/
theorem stackFaultsArePrecise : Obligations.StackFaultsArePrecise := by
  refine ⟨fun nnn s running decoded full => ?_, fun s running decoded empty => ?_⟩
  · have noRoom : ¬ s.advance.sp.val < 16 := full.not_lt
    exact State.cycle_of_raiseFault running decoded (execCall_of_full nnn noRoom)
  · have noEntry : ¬ 0 < s.advance.sp.val := empty.not_gt
    exact State.cycle_of_raiseFault running decoded (execRet_of_empty noEntry)

/-! ## What an instruction does to the record and the events (R222 to R224, R247) -/

/-- From `s`, where `pc` is advanced, to `t` either the record and the events are as before, or a fault is taken and its
record is true of `t`. -/
def CompletesOrFaults (s t : State) : Prop :=
  (t.fault = s.fault ∧ t.events = s.events) ∨
  ∃ (kind : FaultKind) (w : Word) (info : Option Nat),
    t = s.raiseFault kind w info ∧ FaultRecord.TrueOf ⟨kind, s.pc - 2, w, info⟩ t

/-- What leaves those two parts alone completes. -/
theorem CompletesOrFaults.of_frame {parts : List Part} {s t : State} (frame : KeepsAllBut parts s t)
    (hfault : .fault ∉ parts := by simp [writes]) (hevents : .events ∉ parts := by simp [writes]) :
    CompletesOrFaults s t :=
  .inl ⟨frame .fault hfault, frame .events hevents⟩

theorem State.skipIf_completesOrFaults (s : State) (taken : Bool) : CompletesOrFaults s (s.skipIf taken) :=
  .of_frame (s.skipIf_writesOnly taken).frame

/-- A key test faults on a value above 15, which is the value it records (R224). -/
theorem State.testKey_completesOrFaults (s : State) (x : Reg) (level : Bool) {w : Word}
    (word : w = encode (.skp x) ∨ w = encode (.sknp x)) : CompletesOrFaults s (s.testKey x level w) := by
  rcases s.testKey_cases x level w with ⟨k, -, skips⟩ | ⟨above, faults⟩
  · exact skips ▸ s.skipIf_completesOrFaults _
  · exact .inr ⟨_, _, _, faults, faults ▸ ⟨rfl, x, word, above, rfl⟩⟩

/-- Only a call, a return and a key test can fault, and each does where its record says (R223, R224). -/
theorem completesOrFaults_of_exec {i : Instr} {s t : State} (h : exec i s = .next t) : CompletesOrFaults s t := by
  have frame := (writesOnly_of_exec h).frame
  cases i with
  | call nnn =>
    by_cases room : s.sp.val < 16
    · cases h.symm.trans (execCall_of_room nnn room)
      exact .inl ⟨rfl, rfl⟩
    · cases h.symm.trans (execCall_of_full nnn room)
      have full : s.sp.val = 16 := by omega
      exact .inr ⟨_, _, _, rfl, rfl, full, rfl, nnn, rfl⟩
  | ret =>
    by_cases live : 0 < s.sp.val
    · cases h.symm.trans (execRet_of_live live)
      exact .inl ⟨rfl, rfl⟩
    · cases h.symm.trans (execRet_of_empty live)
      have empty : s.sp.val = 0 := by omega
      exact .inr ⟨_, _, _, rfl, rfl, empty, rfl, rfl⟩
  | skp x =>
    cases h
    exact s.testKey_completesOrFaults x true (.inl rfl)
  | sknp x =>
    cases h
    exact s.testKey_completesOrFaults x false (.inr rfl)
  | _ => exact .of_frame frame

/-! ## The events of a step (R247) -/

/-- `exec` as a whole appends at most one event, which is no tone cue. -/
theorem State.events_of_cycle {s t : State} (h : s.cycle = .next t) :
    ∃ emitted : List Event, t.events = s.events ++ emitted ∧ emitted.length ≤ 1 ∧ .toneCue ∉ emitted := by
  rcases State.cycle_cases h with rfl | ⟨-, i, -, answer⟩ | ⟨-, -, rfl⟩
  · exact ⟨[], by simp⟩
  · rcases completesOrFaults_of_exec answer with ⟨-, events⟩ | ⟨kind, w, info, rfl, -⟩
    · exact ⟨[], by simp [events]⟩
    · exact ⟨[.fault kind (s.advance.pc - 2)], rfl, by simp⟩
  · exact ⟨[.unknownOpcode s.fetchWord s.pc], rfl, by simp⟩

/-- Settles O15: a step begins with no events, `exec` appends its own, and then the tick does. -/
theorem eventsOfAStep : Obligations.EventsOfAStep := by
  intro s t h
  obtain ⟨u, answer, rfl⟩ := step_cases h
  obtain ⟨ofExec, events, atMostOne, noCue⟩ := State.events_of_cycle answer
  obtain ⟨dt, st, ofTick, ticked, cue⟩ := u.tickIf_eq s.nextInput.timerTick
  have fromExec : u.events = ofExec := events
  exact ⟨ofExec, ofTick, by rw [ticked, fromExec], atMostOne, noCue, cue⟩

/-! ## What keeps the invariant (R240, R243, R260, R261) -/

/-- Memory is in its canonical form. -/
theorem State.Inv.memory_wf {s : State} (h : s.Inv) : s.memory.wf := h.1

/-- A record speaks of `pc`, `sp` and the registers alone. -/
theorem FaultRecord.TrueOf.of_frame {r : FaultRecord} {parts : List Part} {s t : State} (h : r.TrueOf s)
    (frame : KeepsAllBut parts s t) (hpc : .pc ∉ parts := by simp) (hsp : .sp ∉ parts := by simp)
    (hV : .V ∉ parts := by simp) : r.TrueOf t := by
  have pc : t.pc = s.pc := frame .pc hpc
  have sp : t.sp = s.sp := frame .sp hsp
  have registers : ∀ x, t.reg x = s.reg x := frame .V hV
  simpa only [FaultRecord.TrueOf, pc, sp, registers] using h

/-- A running machine has no record to be true. -/
theorem State.Inv.of_running {s : State} (canonical : s.memory.wf) (running : s.Running) : s.Inv :=
  ⟨canonical, fun _ record => nomatch running.symm.trans record⟩

/-- What keeps the record and what it speaks of keeps the invariant, where memory stays canonical. -/
theorem State.Inv.of_frame {parts : List Part} {s t : State} (h : s.Inv) (canonical : t.memory.wf)
    (frame : KeepsAllBut parts s t) (hfault : .fault ∉ parts := by simp) (hpc : .pc ∉ parts := by simp)
    (hsp : .sp ∉ parts := by simp) (hV : .V ∉ parts := by simp) : t.Inv := by
  obtain ⟨-, recordsTrue⟩ := h
  have kept : t.fault = s.fault := frame .fault hfault
  exact ⟨canonical, fun r record => (recordsTrue r (kept.symm.trans record)).of_frame frame hpc hsp hV⟩

@[simp] theorem State.tickIf_memory (s : State) (timerTick : Bool) : (s.tickIf timerTick).memory = s.memory := by
  obtain ⟨dt, st, ev, ticked, -⟩ := s.tickIf_eq timerTick
  rw [ticked]

theorem State.Inv.begin {s : State} (h : s.Inv) : s.begin.Inv := h.of_frame h.memory_wf s.begin_frame

theorem State.Inv.tickIf {s : State} (h : s.Inv) (timerTick : Bool) : (s.tickIf timerTick).Inv :=
  h.of_frame (s.tickIf_memory timerTick ▸ h.memory_wf) (s.tickIf_frame timerTick)

theorem State.Inv.hostActs {s : State} (h : s.Inv) : s.hostActs.Inv := h.of_frame h.memory_wf s.hostActs_frame

theorem State.Inv.storeBlock {s : State} (h : s.Inv) (a : Nat) (bytes : List Byte) : (s.storeBlock a bytes).Inv :=
  h.of_frame (s.wf_storeBlock a bytes h.memory_wf) (s.storeBlock_frame a bytes)

/-- A load that fits is a block store, and one that does not changes nothing (R261). -/
theorem State.Inv.load {s : State} (h : s.Inv) (bytes : List Byte) : (s.load bytes).1.Inv := by
  unfold State.load
  split
  · exact h.storeBlock _ bytes
  · exact h

theorem State.writeKeypad_frame (s : State) (keys : Keypad) : KeepsAllBut [.keypad] s (s.writeKeypad keys) := by
  intro p hp
  cases p <;> simp_all [Part.Same, State.memRead, State.reg]

/-- Settles O55, by what each operation leaves unchanged; `init` and `withFetchWord` leave no record. -/
theorem hostOperationsKeepTheInvariant : Obligations.HostOperationsKeepTheInvariant := fun s h =>
  ⟨h.load, .of_running Memory.wf_nil rfl, h.begin.tickIf true,
    fun keys => h.of_frame h.memory_wf (s.writeKeypad_frame keys), h.of_frame h.memory_wf s.clearRedraw_frame,
    fun _ _ => .of_running (s.wf_storeBlock _ _ h.memory_wf) rfl⟩

/-! ## What a step keeps (R222 to R225) -/

theorem State.skipIf_memory (s : State) (taken : Bool) : (s.skipIf taken).memory = s.memory := by
  rw [State.skipIf_eq, State.setPc_memory]

theorem State.testKey_memory (s : State) (x : Reg) (level : Bool) (w : Word) :
    (s.testKey x level w).memory = s.memory := by
  rcases s.testKey_cases x level w with ⟨k, -, h⟩ | ⟨-, h⟩ <;> rw [h]
  · exact s.skipIf_memory _
  · exact s.raiseFault_memory _ _ _

theorem State.loadRegs_memory (s : State) (k : Nat) (bytes : List Byte) : (s.loadRegs k bytes).memory = s.memory := by
  rw [State.loadRegs_eq]

/-- Every instruction answers with the cells as they were, but for the two that store a block. -/
theorem exec_memory (i : Instr) (s : State) :
    ∃ t, exec i s = .next t ∧ (t.memory = s.memory ∨ ∃ a bytes, t.memory = (s.storeBlock a bytes).memory) := by
  cases i with
  | ldB x | ldMemStore x => exact ⟨_, rfl, .inr ⟨_, _, rfl⟩⟩
  | call nnn =>
    by_cases room : s.sp.val < 16
    · exact ⟨_, execCall_of_room nnn room, .inl rfl⟩
    · exact ⟨_, execCall_of_full nnn room, .inl rfl⟩
  | ret =>
    by_cases live : 0 < s.sp.val
    · exact ⟨_, execRet_of_live live, .inl rfl⟩
    · exact ⟨_, execRet_of_empty live, .inl rfl⟩
  | ldVxK x =>
    cases key : lowestKey s.keypad with
    | none => exact ⟨_, execLdVxK_of_none x key, .inl rfl⟩
    | some k => exact ⟨_, execLdVxK_of_some x key, .inl rfl⟩
  | seImm x kk | sneImm x kk | seReg x y | sneReg x y => exact ⟨_, rfl, .inl (s.skipIf_memory _)⟩
  | skp x | sknp x => exact ⟨_, rfl, .inl (s.testKey_memory x _ _)⟩
  | ldMemLoad x => exact ⟨_, rfl, .inl (s.loadRegs_memory 0 _)⟩
  | _ => exact ⟨_, rfl, .inl rfl⟩

theorem wf_memory_of_exec {i : Instr} {s t : State} (canonical : s.memory.wf) (h : exec i s = .next t) : t.memory.wf := by
  obtain ⟨u, answer, kept | ⟨a, bytes, stored⟩⟩ := exec_memory i s
  all_goals cases h.symm.trans answer
  · exact kept ▸ canonical
  · exact stored ▸ s.wf_storeBlock a bytes canonical

/-- An instruction of a running machine leaves no record, or a true one. -/
theorem State.inv_of_exec {i : Instr} {s t : State} (canonical : s.memory.wf) (running : s.Running)
    (h : exec i s = .next t) : t.Inv := by
  rcases completesOrFaults_of_exec h with ⟨kept, -⟩ | ⟨kind, w, info, rfl, recordTrue⟩
  · exact .of_running (wf_memory_of_exec canonical h) (kept.trans running)
  · refine ⟨canonical, fun r record => ?_⟩
    cases record
    exact recordTrue

/-- `exec` as a whole keeps the invariant. -/
theorem State.Inv.of_cycle {s t : State} (h : s.Inv) (answer : s.cycle = .next t) : t.Inv := by
  rcases State.cycle_cases answer with rfl | ⟨running, i, -, executes⟩ | ⟨running, -, rfl⟩
  · exact h
  · exact State.inv_of_exec (s := s.advance) h.memory_wf running executes
  · exact .of_running h.memory_wf running

/-- Settles O54: the host's accesses, `exec` and the tick each keep the invariant. -/
theorem stepKeepsTheInvariant : Obligations.StepKeepsTheInvariant := by
  intro s t h taken
  obtain ⟨u, answer, rfl⟩ := step_cases taken
  exact (h.hostActs.begin.of_cycle answer).tickIf _

end Sys2Proof.Machine

/-!
The statements of spec/70_reset_and_hazards.md: what `load` copies, and the run through zeroed memory that follows a
`load` that failed.
-/

namespace Sys2Proof.Machine

/-! ## The load (R261, R262) -/

/-- An image that fits is a block store at 0x200. -/
theorem State.load_of_fits (s : State) {bytes : List Byte} (fits : bytes.length ≤ 3584) :
    s.load bytes = (s.storeBlock 0x200 bytes, .ok) :=
  if_pos (decide_eq_true fits)

/-- One that does not fit changes nothing. -/
theorem State.load_of_large (s : State) {bytes : List Byte} (large : 3584 < bytes.length) :
    s.load bytes = (s, .romTooLarge) :=
  if_neg (by simpa [RomFits] using large)

/-- Settles O2: a block store that fits ends inside memory, so no address it writes is reduced. -/
theorem loadCopiesTheProgramOrNothing : Obligations.LoadCopiesTheProgramOrNothing := by
  refine fun s bytes => ⟨fun fits => ?_, s.load_of_large⟩
  rw [s.load_of_fits fits]
  refine ⟨rfl, s.memRead_storeBlock_inside 0x200 bytes (by omega), fun a inside outside => ?_, s.storeBlock_frame _ _⟩
  exact s.memRead_storeBlock_outside 0x200 a bytes fun i hi => by omega

/-! ## A step at an unknown opcode with stopped timers (R106, R231) -/

/-- Timers at 0 stay at 0, and no cue is emitted (R231, R233). -/
theorem State.tickIf_of_stopped {s : State} (delay : s.DT = 0) (sound : s.ST = 0) (timerTick : Bool) :
    s.tickIf timerTick = s := by
  cases timerTick with
  | false => rfl
  | true =>
    rcases s.tick_cases with ⟨one, -⟩ | ⟨-, ticked⟩
    · simp [sound] at one
    · have stays : ∀ v : Byte, v = 0 → countDown v = v := by rintro _ rfl; rfl
      rw [stays _ delay, stays _ sound] at ticked
      exact ticked

/-- Where `exec` leaves the timers stopped, its answer is the step's (R108). -/
theorem step_of_cycle_stopped {s t : State} (answer : s.hostActs.begin.cycle = .next t) (delay : t.DT = 0)
    (sound : t.ST = 0) : step s = .next t :=
  (State.stepOp_of_cycle (s := s.hostActs) _ answer).trans (congrArg _ (State.tickIf_of_stopped delay sound _))

/-- The parts that move in a step at an unknown opcode with stopped timers: those of the reported no-op, and the host's. -/
abbrev noOpMoves : List Part := [.pc, .events, .keypad, .redraw, .inputs]

/-- A running machine with stopped timers that fetches an unknown opcode reports it and moves on; what else changes is
the host's. -/
theorem step_of_unknown_stopped {s : State} (running : s.Running) (delay : s.DT = 0) (sound : s.ST = 0)
    (unknown : decode s.fetchWord = .unknown s.fetchWord) :
    ∃ t, step s = .next t ∧ t.pc = s.pc + 2 ∧ t.events = [.unknownOpcode s.fetchWord s.pc] ∧
      KeepsAllBut noOpMoves s t := by
  have reported : s.hostActs.begin.cycle = .next (s.hostActs.begin.advance.emit (.unknownOpcode s.fetchWord s.pc)) :=
    State.cycle_of_unknown (s := s.hostActs.begin) running unknown
  exact ⟨_, step_of_cycle_stopped reported delay sound, rfl, rfl,
    (s.hostActs_begin_frame.mono (by simp)).trans ((State.advance_emit_frame _ _).mono (by simp))⟩

/-! ## The run through zeroed memory (R263) -/

/-- What a run from `init` through zeroed memory has come to after `k` steps: `pc` has moved by `2 * k`, and nothing else
has changed but the events and what the host writes. -/
def PastZeros (s : State) (k : Nat) (t : State) : Prop :=
  t.pc.toNat = 0x200 + 2 * k ∧ KeepsAllBut noOpMoves s.init t

/-- Both bytes of the word at such a `pc` lie past the font and inside memory, where `init` leaves zeros (R260). -/
theorem PastZeros.fetchWord_eq_zero {s t : State} {k : Nat} (h : PastZeros s k t) (hk : k < 1792) : t.fetchWord = 0 := by
  obtain ⟨pc, frame⟩ := h
  have zero : ∀ a, 80 ≤ a → a < 4096 → t.memRead a = 0 := fun a past inside => by
    rw [frame .memory (by simp) a, s.memRead_init a inside, List.getD_eq_default _ _ (font_length ▸ past)]
  rw [State.fetchWord, zero _ (by omega) (by omega), zero _ (by omega) (by omega)]
  rfl

/-- The next step reports the zeros and goes past them. -/
theorem PastZeros.step_answers {s t : State} {k : Nat} (h : PastZeros s k t) (hk : k < 1792) :
    ∃ u, step t = .next u ∧ PastZeros s (k + 1) u ∧ u.events = [.unknownOpcode 0x0000 t.pc] ∧
      KeepsAllBut noOpMoves t u := by
  have word := h.fetchWord_eq_zero hk
  obtain ⟨pc, frame⟩ := h
  obtain ⟨u, answer, advanced, events, moved⟩ := step_of_unknown_stopped (s := t) (frame .fault (by simp)) (frame .DT (by simp))
    (frame .ST (by simp)) (word ▸ by decide)
  refine ⟨u, answer, ⟨?_, frame.trans moved⟩, word ▸ events, moved⟩
  rw [advanced, BitVec.toNat_add]
  change (t.pc.toNat + 2) % 65536 = 0x200 + 2 * (k + 1)
  omega

/-- Up to the end of memory a run from `init` goes through zeros, by induction on the number of steps. -/
theorem run_init_pastZeros (s : State) {k : Nat} (hk : k ≤ 1792) :
    ∃ t, core.run k s.init = .next t ∧ PastZeros s k t := by
  induction k with
  | zero => exact ⟨s.init, run_zero s.init, rfl, .refl _ _⟩
  | succ k ih =>
    obtain ⟨t, run, zeros⟩ := ih (Nat.le_of_succ_le hk)
    obtain ⟨u, last, further, -⟩ := zeros.step_answers hk
    exact ⟨u, run_last_step k run last, further⟩

/-- Settles O3: the failed load leaves what `init` left, and the run from there goes through zeros. -/
theorem failedLoadStepsThroughZeros : Obligations.FailedLoadStepsThroughZeros := by
  intro s bytes large
  refine ⟨s.init.load_of_large large, fun k hk => ?_⟩
  rw [s.init.load_of_large large]
  obtain ⟨t, run, zeros⟩ := run_init_pastZeros s hk.le
  obtain ⟨u, last, ⟨pc_u, -⟩, events, moved⟩ := zeros.step_answers hk
  obtain ⟨pc, frame⟩ := zeros
  exact ⟨t, u, run, last, pc, pc_u, events, frame, moved⟩

end Sys2Proof.Machine
